-- ==== Sys2Proof/Word.lean ====
section
/-! DEFINITION. The two word types of the machine (00_scope.md R5, R8). -/

namespace Sys2Proof

/-- An 8-bit value: a data register, a memory cell, an opcode, an operand byte (R5). `+` is `+_8` of R8. -/
abbrev Byte := BitVec 8

/-- A 16-bit value: an address, `PC`, `SP` (R5). `+` is `+_16` of R8. -/
abbrev Addr := BitVec 16

end Sys2Proof
end

