-- ==== Sys2Proof/Config.lean ====
section
/-! DEFINITION. The parameters a model takes (00_scope.md R5): the opcode map, the two reset constants and the zero-page
pointer switch. The values the spec gives them by default are `Config.standard`, in Decode.lean. -/

namespace Sys2Proof

/-- The 32 symbolic opcode names (30_encoding.md R57, R62; "name" in opcode_table.json): the domain of `OPCODE_MAP`. -/
inductive Opcode where
  | ldaImmediate | ldaZeropage | ldaZeropageX | ldaAbsolute | ldaAbsoluteX | ldaAbsoluteY | ldaIndirectX | ldaIndirectY
  | ldxImmediate | ldxZeropage | ldxZeropageY | ldxAbsolute | ldxAbsoluteY
  | ldyImmediate | ldyZeropage | ldyZeropageX | ldyAbsolute | ldyAbsoluteX
  | staZeropage | staZeropageX | staAbsolute | staAbsoluteX | staAbsoluteY | staIndirectX | staIndirectY
  | stxZeropage | stxAbsolute
  | styZeropage | styZeropageX | styAbsolute
  | jsr | rts
  deriving DecidableEq, Repr

/-- All 32 names, in the order of the table of R56. -/
def Opcode.all : List Opcode :=
  [.ldaImmediate, .ldaZeropage, .ldaZeropageX, .ldaAbsolute, .ldaAbsoluteX, .ldaAbsoluteY, .ldaIndirectX, .ldaIndirectY]
  ++ [.ldxImmediate, .ldxZeropage, .ldxZeropageY, .ldxAbsolute, .ldxAbsoluteY]
  ++ [.ldyImmediate, .ldyZeropage, .ldyZeropageX, .ldyAbsolute, .ldyAbsoluteX]
  ++ [.staZeropage, .staZeropageX, .staAbsolute, .staAbsoluteX, .staAbsoluteY, .staIndirectX, .staIndirectY]
  ++ [.stxZeropage, .stxAbsolute, .styZeropage, .styZeropageX, .styAbsolute, .jsr, .rts]

/-- The byte of each instruction: the parameter `OPCODE_MAP` (R5, R57, D1). -/
abbrev OpcodeMap := Opcode → Byte

/-- The named parameters of R5 (92_eei_decisions.md, last table). The cycle-counter domain is fixed: `Int` (D5). -/
structure Config where
  /-- `OPCODE_MAP` (D1). -/
  opcodeMap : OpcodeMap
  /-- `RESET_PC` (D11). -/
  resetPc : Addr
  /-- `SP_RESET` (D4). -/
  spReset : Addr
  /-- `ZP_POINTER_WRAP` (D8): whether a zero-page pointer at 0x00FF takes its high byte from 0x0000. -/
  zpPointerWrap : Bool

end Sys2Proof
end

