-- ==== Sys2Proof/Syntax.lean ====
section
/-! DEFINITION. The 32 instructions, one constructor per row of spec/opcode_table.json, with their operands assembled as
30_encoding.md R53 says: `d8` a byte, `{hi8, lo8}` a 16-bit address. -/

namespace Sys2Proof

/-- The instruction set (30_encoding.md R55, R56). A name is the mnemonic followed by the mode id of R52. -/
inductive Instr where
  | ldaImm (d8 : Byte)
  | ldaZp (d8 : Byte)
  | ldaZpx (d8 : Byte)
  | ldaAbs (base : Addr)
  | ldaAbsx (base : Addr)
  | ldaAbsy (base : Addr)
  | ldaIndx (d8 : Byte)
  | ldaIndy (d8 : Byte)
  | ldxImm (d8 : Byte)
  | ldxZp (d8 : Byte)
  | ldxZpy (d8 : Byte)
  | ldxAbs (base : Addr)
  | ldxAbsy (base : Addr)
  | ldyImm (d8 : Byte)
  | ldyZp (d8 : Byte)
  | ldyZpx (d8 : Byte)
  | ldyAbs (base : Addr)
  | ldyAbsx (base : Addr)
  | staZp (d8 : Byte)
  | staZpx (d8 : Byte)
  | staAbs (base : Addr)
  | staAbsx (base : Addr)
  | staAbsy (base : Addr)
  | staIndx (d8 : Byte)
  | staIndy (d8 : Byte)
  | stxZp (d8 : Byte)
  | stxAbs (base : Addr)
  | styZp (d8 : Byte)
  | styZpx (d8 : Byte)
  | styAbs (base : Addr)
  | jsr (target : Addr)
  | rts
  deriving DecidableEq, Repr

end Sys2Proof
end

