-- ==== Sys2Proof/WellFormed.lean ====
section
/-! DEFINITION. What may be ill formed. An instruction may not: its operand types are exactly the operand bytes of R51.
An opcode map may: two instructions with one byte (30_encoding.md R57). -/

namespace Sys2Proof

/-- Every value of every operand byte is admitted (R51, R53: nothing is reserved), and the operand types hold nothing
else, so every term of `Instr` is well formed. -/
def Instr.wellFormed (_ : Instr) : Bool := true

/-- An opcode map is well formed when no two instructions share a byte ("injective from the 32 instructions to bytes",
R57; "pairwise distinct, so decoding is unambiguous", R56). -/
def OpcodeMap.wellFormed (map : OpcodeMap) : Bool := decide ((Opcode.all.map map).Nodup)

end Sys2Proof
end

