-- ==== Sys2Proof/Decode.lean ====
section
/-! DEFINITION. Instruction encoding (30_encoding.md): formats, the opcode map, the decoder and, after it, the encoder. -/

namespace Sys2Proof

/-! ### Bytes and 16-bit values (00_scope.md R8) -/

/-- `{hi, lo}` of R8. -/
def word (hi lo : Byte) : Addr := hi ++ lo

/-- `v[7:0]` of R8. -/
def loByte (v : Addr) : Byte := v.extractLsb' 0 8

/-- `v[15:8]` of R8, the page number of an address. -/
def hiByte (v : Addr) : Byte := v.extractLsb' 8 8

/-- `zext_16` of R8. -/
def zext16 (v : Byte) : Addr := v.setWidth 16

/-! ### Modes, formats, lengths (R51, R52) -/

/-- The mode ids of R52. -/
inductive Mode where
  | imp | imm | zp | zpx | zpy | abs | absx | absy | indx | indy
  deriving DecidableEq, Repr

/-- The three formats of R51. -/
inductive Format where
  /-- opcode -/
  | f1
  /-- opcode, `d8` -/
  | f2
  /-- opcode, `lo8`, `hi8` -/
  | f3
  deriving DecidableEq, Repr

/-- The format column of R52. -/
def Mode.format : Mode → Format
  | .imp => .f1
  | .imm | .zp | .zpx | .zpy | .indx | .indy => .f2
  | .abs | .absx | .absy => .f3

/-- The length in bytes, opcode included (R51). -/
def Format.length : Format → Nat
  | .f1 => 1
  | .f2 => 2
  | .f3 => 3

/-- The mode column of R56. -/
def Opcode.mode : Opcode → Mode
  | .ldaImmediate | .ldxImmediate | .ldyImmediate => .imm
  | .ldaZeropage | .ldxZeropage | .ldyZeropage | .staZeropage | .stxZeropage | .styZeropage => .zp
  | .ldaZeropageX | .ldyZeropageX | .staZeropageX | .styZeropageX => .zpx
  | .ldxZeropageY => .zpy
  | .ldaAbsolute | .ldxAbsolute | .ldyAbsolute | .staAbsolute | .stxAbsolute | .styAbsolute | .jsr => .abs
  | .ldaAbsoluteX | .ldyAbsoluteX | .staAbsoluteX => .absx
  | .ldaAbsoluteY | .ldxAbsoluteY | .staAbsoluteY => .absy
  | .ldaIndirectX | .staIndirectX => .indx
  | .ldaIndirectY | .staIndirectY => .indy
  | .rts => .imp

/-- The length of an instruction, known from its opcode alone (R52, R59). -/
def Opcode.length (o : Opcode) : Nat := o.mode.format.length

/-! ### The default parameters -/

/-- The opcode map of R56: the MOS 6502 bytes. PRESUMED by the spec ("from general knowledge, not in source", D1): log 1. -/
def standardOpcodeMap : OpcodeMap
  | .ldaImmediate => 0xA9
  | .ldaZeropage => 0xA5
  | .ldaZeropageX => 0xB5
  | .ldaAbsolute => 0xAD
  | .ldaAbsoluteX => 0xBD
  | .ldaAbsoluteY => 0xB9
  | .ldaIndirectX => 0xA1
  | .ldaIndirectY => 0xB1
  | .ldxImmediate => 0xA2
  | .ldxZeropage => 0xA6
  | .ldxZeropageY => 0xB6
  | .ldxAbsolute => 0xAE
  | .ldxAbsoluteY => 0xBE
  | .ldyImmediate => 0xA0
  | .ldyZeropage => 0xA4
  | .ldyZeropageX => 0xB4
  | .ldyAbsolute => 0xAC
  | .ldyAbsoluteX => 0xBC
  | .staZeropage => 0x85
  | .staZeropageX => 0x95
  | .staAbsolute => 0x8D
  | .staAbsoluteX => 0x9D
  | .staAbsoluteY => 0x99
  | .staIndirectX => 0x81
  | .staIndirectY => 0x91
  | .stxZeropage => 0x86
  | .stxAbsolute => 0x8E
  | .styZeropage => 0x84
  | .styZeropageX => 0x94
  | .styAbsolute => 0x8C
  | .jsr => 0x20
  | .rts => 0x60

/-- The machine of this model: every parameter at the default of R5 (log 1, 3, 7). -/
def Config.standard : Config where
  opcodeMap := standardOpcodeMap
  resetPc := 0xFFFC
  spReset := 0x0100
  zpPointerWrap := false

/-! ### The decoder -/

/-- Why bytes are no instruction. -/
inductive DecodeError where
  /-- The opcode byte is not in the map (R58): a documented behaviour of the hardware. -/
  | unimplementedOpcode (opcode : Byte)
  /-- The list ends before the instruction does. The machine never meets it: memory has no end (R31). -/
  | incomplete
  deriving DecidableEq, Repr

/-- The row of the map with this byte, the whole byte compared (R54). -/
def opcodeOf (map : OpcodeMap) (b : Byte) : Option Opcode := Opcode.all.find? (fun o => map o == b)

/-- The instruction an opcode and its operand bytes stand for (R53): `b1` is `d8` or `lo8`, `b2` is `hi8`; a format
without the byte does not look at it. -/
def Opcode.instr (o : Opcode) (b1 b2 : Byte) : Instr :=
  match o with
  | .ldaImmediate => .ldaImm b1
  | .ldaZeropage => .ldaZp b1
  | .ldaZeropageX => .ldaZpx b1
  | .ldaAbsolute => .ldaAbs (word b2 b1)
  | .ldaAbsoluteX => .ldaAbsx (word b2 b1)
  | .ldaAbsoluteY => .ldaAbsy (word b2 b1)
  | .ldaIndirectX => .ldaIndx b1
  | .ldaIndirectY => .ldaIndy b1
  | .ldxImmediate => .ldxImm b1
  | .ldxZeropage => .ldxZp b1
  | .ldxZeropageY => .ldxZpy b1
  | .ldxAbsolute => .ldxAbs (word b2 b1)
  | .ldxAbsoluteY => .ldxAbsy (word b2 b1)
  | .ldyImmediate => .ldyImm b1
  | .ldyZeropage => .ldyZp b1
  | .ldyZeropageX => .ldyZpx b1
  | .ldyAbsolute => .ldyAbs (word b2 b1)
  | .ldyAbsoluteX => .ldyAbsx (word b2 b1)
  | .staZeropage => .staZp b1
  | .staZeropageX => .staZpx b1
  | .staAbsolute => .staAbs (word b2 b1)
  | .staAbsoluteX => .staAbsx (word b2 b1)
  | .staAbsoluteY => .staAbsy (word b2 b1)
  | .staIndirectX => .staIndx b1
  | .staIndirectY => .staIndy b1
  | .stxZeropage => .stxZp b1
  | .stxAbsolute => .stxAbs (word b2 b1)
  | .styZeropage => .styZp b1
  | .styZeropageX => .styZpx b1
  | .styAbsolute => .styAbs (word b2 b1)
  | .jsr => .jsr (word b2 b1)
  | .rts => .rts

/-- Take the operand bytes of the opcode's format from the list (R51). -/
def decodeOperands (o : Opcode) (rest : List Byte) : Except DecodeError (Instr × List Byte) :=
  match o.mode.format, rest with
  | .f1, r => .ok (o.instr 0 0, r)
  | .f2, d8 :: r => .ok (o.instr d8 0, r)
  | .f3, lo8 :: hi8 :: r => .ok (o.instr lo8 hi8, r)
  | _, _ => .error .incomplete

/-- The decoder, for any opcode map (R52, R54, R57): the first instruction of the bytes and the bytes after it, or the
name of the reason there is none. -/
def decodeWith (map : OpcodeMap) (bytes : List Byte) : Except DecodeError (Instr × List Byte) :=
  match bytes with
  | [] => .error .incomplete
  | b :: rest =>
    match opcodeOf map b with
    | none => .error (.unimplementedOpcode b)
    | some o => decodeOperands o rest

/-- The decoder of this machine. -/
def decode (bytes : List Byte) : Except DecodeError (Instr × List Byte) := decodeWith Config.standard.opcodeMap bytes

/-! ### The encoder -/

/-- The opcode of an instruction (R56). -/
def Instr.opcode : Instr → Opcode
  | .ldaImm _ => .ldaImmediate
  | .ldaZp _ => .ldaZeropage
  | .ldaZpx _ => .ldaZeropageX
  | .ldaAbs _ => .ldaAbsolute
  | .ldaAbsx _ => .ldaAbsoluteX
  | .ldaAbsy _ => .ldaAbsoluteY
  | .ldaIndx _ => .ldaIndirectX
  | .ldaIndy _ => .ldaIndirectY
  | .ldxImm _ => .ldxImmediate
  | .ldxZp _ => .ldxZeropage
  | .ldxZpy _ => .ldxZeropageY
  | .ldxAbs _ => .ldxAbsolute
  | .ldxAbsy _ => .ldxAbsoluteY
  | .ldyImm _ => .ldyImmediate
  | .ldyZp _ => .ldyZeropage
  | .ldyZpx _ => .ldyZeropageX
  | .ldyAbs _ => .ldyAbsolute
  | .ldyAbsx _ => .ldyAbsoluteX
  | .staZp _ => .staZeropage
  | .staZpx _ => .staZeropageX
  | .staAbs _ => .staAbsolute
  | .staAbsx _ => .staAbsoluteX
  | .staAbsy _ => .staAbsoluteY
  | .staIndx _ => .staIndirectX
  | .staIndy _ => .staIndirectY
  | .stxZp _ => .stxZeropage
  | .stxAbs _ => .stxAbsolute
  | .styZp _ => .styZeropage
  | .styZpx _ => .styZeropageX
  | .styAbs _ => .styAbsolute
  | .jsr _ => .jsr
  | .rts => .rts

/-- The operand bytes of an instruction, in the order they stand in memory (R51): `d8`, or `lo8` then `hi8`. -/
def Instr.operandBytes : Instr → List Byte
  | .ldaImm d8 | .ldaZp d8 | .ldaZpx d8 | .ldaIndx d8 | .ldaIndy d8 | .ldxImm d8 | .ldxZp d8 | .ldxZpy d8
  | .ldyImm d8 | .ldyZp d8 | .ldyZpx d8 | .staZp d8 | .staZpx d8 | .staIndx d8 | .staIndy d8 | .stxZp d8
  | .styZp d8 | .styZpx d8 => [d8]
  | .ldaAbs w | .ldaAbsx w | .ldaAbsy w | .ldxAbs w | .ldxAbsy w | .ldyAbs w | .ldyAbsx w | .staAbs w | .staAbsx w
  | .staAbsy w | .stxAbs w | .styAbs w | .jsr w => [loByte w, hiByte w]
  | .rts => []

/-- The length of an instruction in bytes, opcode included (R52). -/
def Instr.length (i : Instr) : Nat := i.opcode.length

/-- The encoder, for any opcode map (R50: one opcode byte, then the operand bytes). -/
def encodeWith (map : OpcodeMap) (i : Instr) : List Byte := map i.opcode :: i.operandBytes

/-- The encoder of this machine. -/
def encode (i : Instr) : List Byte := encodeWith Config.standard.opcodeMap i

/-! ### Instruction words as the opcode table numbers them -/

/-- Byte `k` of a word whose bit 0 is bit 0 of the first byte; only the lowest `nbits` bits count. -/
def tableByte (nbits w k : Nat) : Byte := BitVec.ofNat 8 ((w % 2 ^ nbits) / 2 ^ (8 * k))

/-- The bytes of a table word, three of them: the longest instruction (R50). -/
def tableBytes (nbits w : Nat) : List Byte := [tableByte nbits w 0, tableByte nbits w 1, tableByte nbits w 2]

/-- The instruction the decoder reads from a table word. -/
def decodeTableWord (nbits w : Nat) : Option Instr :=
  match decode (tableBytes nbits w) with
  | .ok (i, _) => some i
  | .error _ => none

end Sys2Proof
end

