-- ==== Sys2Proof/Machine/State.lean ====
section
/-! DEFINITION. The complete state of the block (10_state.md R10), the two reason types of a stop, and the state right
after `Reset()` (R26). -/

namespace Sys2Proof.Machine

/-- The three data registers `x[A]`, `x[X]`, `x[Y]` (R11), as names. -/
inductive DataReg where
  | a | x | y
  deriving DecidableEq, Repr

/-- The seven flags (R17), seven separate bits and no packed form (R20; D15). -/
structure Flags where
  /-- `C`, carry: storage only (R19). -/
  c : Bool
  /-- `Z`, zero: computed by `SetZN` (R18). -/
  z : Bool
  /-- `I`, interruptDisable: storage only (R19). -/
  i : Bool
  /-- `D`, decimal: storage only (R19). -/
  d : Bool
  /-- `B`, break: storage only (R19). -/
  b : Bool
  /-- `V`, overflow: storage only (R19). -/
  v : Bool
  /-- `N`, negative: computed by `SetZN` (R18). -/
  n : Bool
  deriving DecidableEq, Repr

/-- The fault latch `FAULT` (R23; the spec's decision D6, log 6). -/
inductive FaultLatch where
  | none
  | unimplementedOpcode (opcode : Byte)
  deriving DecidableEq, Repr

/-- The memory `M` (R21), as the list of its nonzero cells; `Memory.wf` in Ops.lean is the canonical form (log 13). -/
abbrev Memory := List Host.Cell

/-- The complete state (R10). -/
structure State where
  /-- `A`, the accumulator (R11). -/
  a : Byte
  /-- `X`, an index register (R11). -/
  x : Byte
  /-- `Y`, an index register (R11). -/
  y : Byte
  /-- `PC`, the address of the next instruction byte not yet fetched (R13). -/
  pc : Addr
  /-- `SP`, the address of the return word (R15; D4, log 3). -/
  sp : Addr
  /-- `C Z I D B V N` (R17). -/
  flags : Flags
  /-- `M[0..65535]` (R21). -/
  mem : Memory
  /-- `rem`, the remaining-cycle counter, an integer that may be negative (R22; D5, log 4, log 5). -/
  rem : Int
  /-- `FAULT` (R23). -/
  fault : FaultLatch
  deriving DecidableEq, Repr

/-- Why the machine stops with a fault. -/
inductive Fault where
  /-- The one exception of the hardware (60_exceptions.md R170, R171), raised by `step` at the dispatch of a byte outside
  the opcode map, with the state it leaves (R173): safe, the spec documents it. `step` answers it again, with the state
  unchanged, while the latch is set (41_dispatch_execute.md R109; D6): safe, it allows nothing after a fault. -/
  | unimplementedOpcode (opcode : Byte) (left : State)
  deriving DecidableEq, Repr

/-- Why the model says nothing: not behaviours of the hardware (R183 (c)). -/
inductive Refusal where
  /-- An instruction `exec` gives no meaning yet. Raised by no arm: all 32 have their meaning. Safe. -/
  | notModelled (mnemonic : String)
  /-- A transaction that needs a state, before the first Reset (10_state.md R27; D7, log 8). Raised by
  `Block.transact`, never by `step`. Safe: nothing is claimed of a block that was never reset. -/
  | beforeFirstReset
  deriving DecidableEq, Repr

/-- The state immediately after `Reset()` (R26, R190), under any parameters (R5). `rem` has no value of the spec's: log 5. -/
def State.resetOf (cfg : Config) : State where
  a := 0x00
  x := 0x00
  y := 0x00
  pc := cfg.resetPc
  sp := cfg.spReset
  flags := ⟨false, false, false, false, false, false, false⟩
  mem := []
  rem := 0
  fault := .none

/-- The state immediately after `Reset()` of this machine. -/
def State.reset : State := State.resetOf Config.standard

end Sys2Proof.Machine
end

