-- ==== Sys2Proof/Machine/Ops.lean ====
section
/-! DEFINITION. The operations every instruction is built from: memory (20_memory.md), data registers, the
cycle-consuming primitives (40_fetch_addressing_flags.md R70 to R76), raising the one exception (60_exceptions.md) and
Reset, the only way out of it (70_reset_and_hazards.md). -/

namespace Sys2Proof.Machine

/-! ### Memory -/

/-- What a cell the list does not hold reads as: the 0x00 that Reset gives every cell (R26, R37). -/
def Memory.unlisted : Byte := 0x00

/-- The value the list holds for a key. -/
def Memory.lookup : Memory → Nat → Byte
  | [], _ => Memory.unlisted
  | (k, w) :: m, a => if a = k then w else Memory.lookup m a

/-- Set the value of a key, keeping the keys rising and listing no cell that reads as an unlisted one. -/
def Memory.insert : Memory → Nat → Byte → Memory
  | [], a, v => if v = Memory.unlisted then [] else [(a, v)]
  | (k, w) :: m, a, v =>
    if a < k then (if v = Memory.unlisted then (k, w) :: m else (a, v) :: (k, w) :: m)
    else if a = k then (if v = Memory.unlisted then m else (a, v) :: m)
    else (k, w) :: Memory.insert m a v

/-- The canonical form: keys strictly rising and below 65,536 (R30), no cell listed that reads as an unlisted one. -/
abbrev Memory.wf (m : Memory) : Prop :=
  m.Pairwise (fun p q => p.1 < q.1) ∧ ∀ p ∈ m, p.1 < 65536 ∧ p.2 ≠ Memory.unlisted

/-- `MemRead(addr, 1)` (R33). -/
def Memory.read (m : Memory) (a : Addr) : Byte := m.lookup a.toNat

/-- `MemWrite(addr, 1, v)` (R34). -/
def Memory.write (m : Memory) (a : Addr) (v : Byte) : Memory := m.insert a.toNat v

/-- `MemRead(addr, 2)` (R35): low byte at `a`, high byte at `a +_16 1`. -/
def Memory.readWord (m : Memory) (a : Addr) : Addr := word (m.read (a + 1)) (m.read a)

/-- `MemWrite(addr, 2, v)` (R36): low byte at `a`, then high byte at `a +_16 1`. -/
def Memory.writeWord (m : Memory) (a v : Addr) : Memory := (m.write a (loByte v)).write (a + 1) (hiByte v)

/-- Write bytes at consecutive addresses modulo 2^16: how a program is placed in memory (R42, R194). -/
def Memory.writeBytes (m : Memory) (a : Addr) : List Byte → Memory
  | [] => m
  | v :: vs => Memory.writeBytes (m.write a v) (a + 1) vs

/-- `Initialize()` (R37): every cell 0x00. -/
def Memory.zeroed : Memory := []

namespace State

/-! ### Data registers -/

/-- `x[r]` (R8). -/
def reg (s : State) : DataReg → Byte
  | .a => s.a
  | .x => s.x
  | .y => s.y

/-- `x[r] <- v` (R8). -/
def setReg (s : State) (r : DataReg) (v : Byte) : State :=
  match r with
  | .a => { s with a := v }
  | .x => { s with x := v }
  | .y => { s with y := v }

/-! ### Cycle-consuming primitives -/

/-- `Tick(k)` (R8, R76): lowers `rem` and does nothing else (D12, log 10). -/
def tick (s : State) (k : Nat) : State := { s with rem := s.rem - (k : Int) }

/-- What `FetchByte` (`k` = 1) and `FetchWord` (`k` = 2) do to the state: `PC <- PC +_16 k`, `Tick(k)` (R70, R71). -/
def passBytes (s : State) (k : Nat) : State := { s with pc := s.pc + BitVec.ofNat 16 k, rem := s.rem - (k : Int) }

/-- `FetchByte()` (R70). -/
def fetchByte (s : State) : Byte × State := (s.mem.read s.pc, s.passBytes 1)

/-- The bytes at `PC`, as many as the longest instruction has (R50), at consecutive addresses modulo 2^16 (R31). Reading
them changes nothing (R41). -/
def fetchWindow (s : State) : List Byte := [s.mem.read s.pc, s.mem.read (s.pc + 1), s.mem.read (s.pc + 2)]

/-- `FetchWord()` (R71). -/
def fetchWord (s : State) : Addr × State := (s.mem.readWord s.pc, s.passBytes 2)

/-- The state in which a handler body starts: the opcode is fetched, `PC` is its address plus 1, one cycle is consumed
(41_dispatch_execute.md R101). -/
def opcodeFetched (s : State) : State := s.fetchByte.2

/-- `ReadByte(a)` (R72). -/
def readByte (s : State) (a : Addr) : Byte × State := (s.mem.read a, s.tick 1)

/-- `ReadWord(a)` (R73): two chained `ReadByte`s, low byte at `a`, high byte at `a +_16 1`. -/
def readWord (s : State) (a : Addr) : Addr × State :=
  let lo := s.readByte a
  let hi := lo.2.readByte (a + 1)
  (word hi.1 lo.1, hi.2)

/-- `WriteByte(a, v)` (R74). -/
def writeByte (s : State) (a : Addr) (v : Byte) : State := { s with mem := s.mem.write a v }.tick 1

/-- `WriteWord(a, v)` (R75). -/
def writeWord (s : State) (a v : Addr) : State := { s with mem := s.mem.writeWord a v }.tick 2

/-- `PC <- target` (R8). -/
def jump (s : State) (target : Addr) : State := { s with pc := target }

/-! ### The exception, and the only way out of it -/

/-- The state part of `raise UnimplementedOpcode(b)` (R172): the latch is set and nothing else changes; the exception
vectors nowhere and saves nothing (R175). Run after the opcode fetch, it leaves the state of R173. -/
def raiseUnimplementedOpcode (s : State) (opcode : Byte) : State := { s with fault := .unimplementedOpcode opcode }

/-- The outcome of `raise UnimplementedOpcode(b)` (R172, R183 (b)): a fault that carries the state it leaves. -/
def unimplemented (s : State) (opcode : Byte) : Host.Outcome State Fault Refusal :=
  .fault (.unimplementedOpcode opcode (s.raiseUnimplementedOpcode opcode))

/-- `Reset(addr)` (R191), under any parameters: `State.resetOf` but for `PC`, and for `rem`, which Reset does not touch
(R22). There is no return from the exception (R176): Reset is the only way to clear `FAULT` (R193). -/
def resetAtWith (s : State) (cfg : Config) (addr : Addr) : State := { State.resetOf cfg with pc := addr, rem := s.rem }

/-- `Reset()` (R190), under any parameters: it is `Reset(RESET_PC)` (D11). -/
def resetDefaultWith (s : State) (cfg : Config) : State := s.resetAtWith cfg cfg.resetPc

/-- `Reset(addr)` of this machine. -/
def resetAt (s : State) (addr : Addr) : State := s.resetAtWith Config.standard addr

/-- `Reset()` of this machine. -/
def resetDefault (s : State) : State := s.resetDefaultWith Config.standard

/-! ### The invariant of the state -/

/-- The memory is in canonical form: the one relation the representation asks for. -/
abbrev wf (s : State) : Prop := s.mem.wf

end State

end Sys2Proof.Machine
end

