-- ==== Sys2Proof/Machine/Flags.lean ====
section
/-! DEFINITION. The flag updater, the only flag computation of the hardware (40_fetch_addressing_flags.md R92, R93). -/

namespace Sys2Proof.Machine

/-- `SetZN(v)` on the flags (R92): `Z` is 1 iff `v` is 0x00, `N` is `v[7]`; the other five keep their values. -/
def Flags.setZN (f : Flags) (v : Byte) : Flags := { f with z := v == 0x00, n := v.getLsbD 7 }

/-- `SetZN(v)` (R92): no cycle, no other effect. -/
def State.setZN (s : State) (v : Byte) : State := { s with flags := s.flags.setZN v }

end Sys2Proof.Machine
end

