-- ==== Sys2Proof/Machine/Operands.lean ====
section
/-! DEFINITION. The addressing-mode resolver (40_fetch_addressing_flags.md R77 to R91). A resolver takes the instruction's
operand, already assembled by the decoder, and the state after the opcode fetch, and answers the effective address (for
`IMM` the data) and the state after it. Where the pseudocode runs `FetchByte` or `FetchWord` on the operand, the resolver
runs `passBytes`: the same advance of `PC` and the same cycles (log 12). -/

namespace Sys2Proof.Machine

/-- `OperandIMM()` (R78): the operand byte is the data. -/
def operandImm (d8 : Byte) (s : State) : Byte × State := (d8, s.passBytes 1)

/-- `AddrZP()` (R79). -/
def addrZp (d8 : Byte) (s : State) : Addr × State := (zext16 d8, s.passBytes 1)

/-- The zero-page indexed modes, of R80 and R81: the sum is truncated to 8 bits, and the index addition always costs a
cycle. -/
def addrZpIndexed (idx : DataReg) (d8 : Byte) (s : State) : Addr × State :=
  (zext16 (d8 + s.reg idx), (s.passBytes 1).tick 1)

/-- `AddrZPX()` (R80). -/
def addrZpx (d8 : Byte) (s : State) : Addr × State := addrZpIndexed .x d8 s

/-- `AddrZPY()` (R81). -/
def addrZpy (d8 : Byte) (s : State) : Addr × State := addrZpIndexed .y d8 s

/-- `AddrABS()` (R82). -/
def addrAbs (operand : Addr) (s : State) : Addr × State := (operand, s.passBytes 2)

/-- `Cross(base, idx)` (R83): 1 iff the integer sum of the low byte and the index exceeds 0xFF. (C4 discards the other
test the source hints at.) -/
def cross (base : Addr) (idx : Byte) : Nat := if (loByte base).toNat + idx.toNat > 0xFF then 1 else 0

/-- The two forms of an indexed mode (R77): the read variant, used by loads, pays a cycle on a page crossing only; the
write variant, used by stores, always. -/
inductive Variant where
  | read | write
  deriving DecidableEq, Repr

/-- The extra cycles of an indexed mode (R77). -/
def Variant.extra (variant : Variant) (base : Addr) (idx : Byte) : Nat :=
  match variant with
  | .read => cross base idx
  | .write => 1

/-- The 16-bit index addition and its cycle, shared by R84 to R87, R89 and R90. -/
def indexed (variant : Variant) (base : Addr) (idx : Byte) (s : State) : Addr × State :=
  (base + zext16 idx, s.tick (variant.extra base idx))

/-- `AddrABSX_read()` (R84). -/
def addrAbsxRead (base : Addr) (s : State) : Addr × State := indexed .read base s.x (s.passBytes 2)

/-- `AddrABSY_read()` (R85). -/
def addrAbsyRead (base : Addr) (s : State) : Addr × State := indexed .read base s.y (s.passBytes 2)

/-- `AddrABSX_write()` (R86). -/
def addrAbsxWrite (base : Addr) (s : State) : Addr × State := indexed .write base s.x (s.passBytes 2)

/-- `AddrABSY_write()` (R87). -/
def addrAbsyWrite (base : Addr) (s : State) : Addr × State := indexed .write base s.y (s.passBytes 2)

/-- The 2-cycle read of a zero-page pointer. `wrap` is `ZP_POINTER_WRAP` (R91; D8, log 7): off, it is
`ReadWord(zext_16(p))`, whose high byte stands at 0x0100 when `p` is 0xFF; on, the high byte is read from
`zext_16(p +_8 1)`. -/
def readPointer (wrap : Bool) (p : Byte) (s : State) : Addr × State :=
  if wrap then
    let lo := s.readByte (zext16 p)
    let hi := lo.2.readByte (zext16 (p + 1))
    (word hi.1 lo.1, hi.2)
  else s.readWord (zext16 p)

/-- `AddrINDX()` (R88), for either setting of the switch. -/
def addrIndxWith (wrap : Bool) (d8 : Byte) (s : State) : Addr × State :=
  readPointer wrap (d8 + s.x) ((s.passBytes 1).tick 1)

/-- `AddrINDX()` (R88) of this machine. -/
def addrIndx (d8 : Byte) (s : State) : Addr × State := addrIndxWith Config.standard.zpPointerWrap d8 s

/-- `AddrINDY_read()` and `AddrINDY_write()` (R89, R90), for either setting of the switch. -/
def addrIndyWith (wrap : Bool) (variant : Variant) (d8 : Byte) (s : State) : Addr × State :=
  let base := readPointer wrap d8 (s.passBytes 1)
  indexed variant base.1 base.2.y base.2

/-- `AddrINDY_read()` (R89) of this machine. -/
def addrIndyRead (d8 : Byte) (s : State) : Addr × State := addrIndyWith Config.standard.zpPointerWrap .read d8 s

/-- `AddrINDY_write()` (R90) of this machine. -/
def addrIndyWrite (d8 : Byte) (s : State) : Addr × State := addrIndyWith Config.standard.zpPointerWrap .write d8 s

end Sys2Proof.Machine
end

