-- ==== Sys2Proof/Machine/Loads.lean ====
section
/-! DEFINITION. The 18 load instructions (42_loads.md): handler bodies, run after the opcode fetch (R101). -/

namespace Sys2Proof.Machine

/-- `Load(r, v)` (R120): write the register, then run the flag updater. -/
def load (r : DataReg) (v : Byte) (s : State) : State := (s.setReg r v).setZN v

/-- A load whose data is the operand (R120, for IMM). -/
def loadValue (r : DataReg) (operand : Byte × State) : Host.Outcome State Fault Refusal :=
  .next (load r operand.1 operand.2)

/-- A load from the effective address a resolver answered (R120): `v <- ReadByte(ea)`, `Load(r, v)`. -/
def loadFrom (r : DataReg) (resolved : Addr × State) : Host.Outcome State Fault Refusal :=
  loadValue r (resolved.2.readByte resolved.1)

/-- LDA immediate (R121). -/
def execLdaImm (d8 : Byte) (s : State) : Host.Outcome State Fault Refusal := loadValue .a (operandImm d8 s)

/-- LDA zero page (R122). -/
def execLdaZp (d8 : Byte) (s : State) : Host.Outcome State Fault Refusal := loadFrom .a (addrZp d8 s)

/-- LDA zero page,X (R123). -/
def execLdaZpx (d8 : Byte) (s : State) : Host.Outcome State Fault Refusal := loadFrom .a (addrZpx d8 s)

/-- LDA absolute (R124). -/
def execLdaAbs (base : Addr) (s : State) : Host.Outcome State Fault Refusal := loadFrom .a (addrAbs base s)

/-- LDA absolute,X (R125). -/
def execLdaAbsx (base : Addr) (s : State) : Host.Outcome State Fault Refusal := loadFrom .a (addrAbsxRead base s)

/-- LDA absolute,Y (R126). -/
def execLdaAbsy (base : Addr) (s : State) : Host.Outcome State Fault Refusal := loadFrom .a (addrAbsyRead base s)

/-- LDA (zp,X) (R127), under any parameters (`ZP_POINTER_WRAP`, R91). -/
def execLdaIndxWith (cfg : Config) (d8 : Byte) (s : State) : Host.Outcome State Fault Refusal :=
  loadFrom .a (addrIndxWith cfg.zpPointerWrap d8 s)

/-- LDA (zp,X) (R127). -/
def execLdaIndx (d8 : Byte) (s : State) : Host.Outcome State Fault Refusal := execLdaIndxWith Config.standard d8 s

/-- LDA (zp),Y (R128), under any parameters (`ZP_POINTER_WRAP`, R91). -/
def execLdaIndyWith (cfg : Config) (d8 : Byte) (s : State) : Host.Outcome State Fault Refusal :=
  loadFrom .a (addrIndyWith cfg.zpPointerWrap .read d8 s)

/-- LDA (zp),Y (R128). -/
def execLdaIndy (d8 : Byte) (s : State) : Host.Outcome State Fault Refusal := execLdaIndyWith Config.standard d8 s

/-- LDX immediate (R129). -/
def execLdxImm (d8 : Byte) (s : State) : Host.Outcome State Fault Refusal := loadValue .x (operandImm d8 s)

/-- LDX zero page (R130). -/
def execLdxZp (d8 : Byte) (s : State) : Host.Outcome State Fault Refusal := loadFrom .x (addrZp d8 s)

/-- LDX zero page,Y (R131). -/
def execLdxZpy (d8 : Byte) (s : State) : Host.Outcome State Fault Refusal := loadFrom .x (addrZpy d8 s)

/-- LDX absolute (R132). -/
def execLdxAbs (base : Addr) (s : State) : Host.Outcome State Fault Refusal := loadFrom .x (addrAbs base s)

/-- LDX absolute,Y (R133). -/
def execLdxAbsy (base : Addr) (s : State) : Host.Outcome State Fault Refusal := loadFrom .x (addrAbsyRead base s)

/-- LDY immediate (R134). -/
def execLdyImm (d8 : Byte) (s : State) : Host.Outcome State Fault Refusal := loadValue .y (operandImm d8 s)

/-- LDY zero page (R135). -/
def execLdyZp (d8 : Byte) (s : State) : Host.Outcome State Fault Refusal := loadFrom .y (addrZp d8 s)

/-- LDY zero page,X (R136). -/
def execLdyZpx (d8 : Byte) (s : State) : Host.Outcome State Fault Refusal := loadFrom .y (addrZpx d8 s)

/-- LDY absolute (R137). -/
def execLdyAbs (base : Addr) (s : State) : Host.Outcome State Fault Refusal := loadFrom .y (addrAbs base s)

/-- LDY absolute,X (R138). -/
def execLdyAbsx (base : Addr) (s : State) : Host.Outcome State Fault Refusal := loadFrom .y (addrAbsxRead base s)

end Sys2Proof.Machine
end

