-- ==== Sys2Proof/Machine/Stores.lean ====
section
/-! DEFINITION. The 12 store instructions (43_stores.md): handler bodies, run after the opcode fetch (R101), with the
write variant of each mode (R140). -/

namespace Sys2Proof.Machine

/-- `Store(r, ea)` (R140) at the effective address a resolver answered: `WriteByte(ea, x[r])`, no flag, no register. -/
def storeTo (r : DataReg) (resolved : Addr × State) : Host.Outcome State Fault Refusal :=
  .next (resolved.2.writeByte resolved.1 (resolved.2.reg r))

/-- STA zero page (R141). -/
def execStaZp (d8 : Byte) (s : State) : Host.Outcome State Fault Refusal := storeTo .a (addrZp d8 s)

/-- STA zero page,X (R142). -/
def execStaZpx (d8 : Byte) (s : State) : Host.Outcome State Fault Refusal := storeTo .a (addrZpx d8 s)

/-- STA absolute (R143). -/
def execStaAbs (base : Addr) (s : State) : Host.Outcome State Fault Refusal := storeTo .a (addrAbs base s)

/-- STA absolute,X (R144). -/
def execStaAbsx (base : Addr) (s : State) : Host.Outcome State Fault Refusal := storeTo .a (addrAbsxWrite base s)

/-- STA absolute,Y (R145). -/
def execStaAbsy (base : Addr) (s : State) : Host.Outcome State Fault Refusal := storeTo .a (addrAbsyWrite base s)

/-- STA (zp,X) (R146), under any parameters (`ZP_POINTER_WRAP`, R91). -/
def execStaIndxWith (cfg : Config) (d8 : Byte) (s : State) : Host.Outcome State Fault Refusal :=
  storeTo .a (addrIndxWith cfg.zpPointerWrap d8 s)

/-- STA (zp,X) (R146). -/
def execStaIndx (d8 : Byte) (s : State) : Host.Outcome State Fault Refusal := execStaIndxWith Config.standard d8 s

/-- STA (zp),Y (R147), under any parameters (`ZP_POINTER_WRAP`, R91). -/
def execStaIndyWith (cfg : Config) (d8 : Byte) (s : State) : Host.Outcome State Fault Refusal :=
  storeTo .a (addrIndyWith cfg.zpPointerWrap .write d8 s)

/-- STA (zp),Y (R147). -/
def execStaIndy (d8 : Byte) (s : State) : Host.Outcome State Fault Refusal := execStaIndyWith Config.standard d8 s

/-- STX zero page (R148). -/
def execStxZp (d8 : Byte) (s : State) : Host.Outcome State Fault Refusal := storeTo .x (addrZp d8 s)

/-- STX absolute (R149). -/
def execStxAbs (base : Addr) (s : State) : Host.Outcome State Fault Refusal := storeTo .x (addrAbs base s)

/-- STY zero page (R150). -/
def execStyZp (d8 : Byte) (s : State) : Host.Outcome State Fault Refusal := storeTo .y (addrZp d8 s)

/-- STY zero page,X (R151). -/
def execStyZpx (d8 : Byte) (s : State) : Host.Outcome State Fault Refusal := storeTo .y (addrZpx d8 s)

/-- STY absolute (R152). -/
def execStyAbs (base : Addr) (s : State) : Host.Outcome State Fault Refusal := storeTo .y (addrAbs base s)

end Sys2Proof.Machine
end

