-- ==== Sys2Proof/Machine/Subroutine.lean ====
section
/-! DEFINITION. JSR and RTS (44_subroutine.md): handler bodies, run after the opcode fetch (R101). `SP` does not move:
nested calls overwrite the one return word, by design (R163). -/

namespace Sys2Proof.Machine

/-- JSR (R160): pass the operand, write `PC -_16 1` at `SP`, jump, one additional cycle. -/
def execJsr (target : Addr) (s : State) : Host.Outcome State Fault Refusal :=
  let fetched := s.passBytes 2
  .next (((fetched.writeWord fetched.sp (fetched.pc - 1)).jump target).tick 1)

/-- RTS (R161): read the word at `SP`, jump to it plus 1, three additional cycles (the total of 6 wins over the source's
itemisation: C3, log 11). -/
def execRts (s : State) : Host.Outcome State Fault Refusal :=
  let ret := s.readWord s.sp
  .next ((ret.2.jump (ret.1 + 1)).tick 3)

end Sys2Proof.Machine
end

