-- ==== Sys2Proof/Machine/Dispatch.lean ====
section
/-! DEFINITION. One arm per instruction: a pure function of the opcode (41_dispatch_execute.md R102). -/

namespace Sys2Proof.Machine

def exec (i : Instr) (s : State) : Host.Outcome State Fault Refusal :=
  match i with
  | .ldaImm d8 => Sys2Proof.Machine.execLdaImm d8 s
  | .ldaZp d8 => Sys2Proof.Machine.execLdaZp d8 s
  | .ldaZpx d8 => Sys2Proof.Machine.execLdaZpx d8 s
  | .ldaAbs base => Sys2Proof.Machine.execLdaAbs base s
  | .ldaAbsx base => Sys2Proof.Machine.execLdaAbsx base s
  | .ldaAbsy base => Sys2Proof.Machine.execLdaAbsy base s
  | .ldaIndx d8 => Sys2Proof.Machine.execLdaIndx d8 s
  | .ldaIndy d8 => Sys2Proof.Machine.execLdaIndy d8 s
  | .ldxImm d8 => Sys2Proof.Machine.execLdxImm d8 s
  | .ldxZp d8 => Sys2Proof.Machine.execLdxZp d8 s
  | .ldxZpy d8 => Sys2Proof.Machine.execLdxZpy d8 s
  | .ldxAbs base => Sys2Proof.Machine.execLdxAbs base s
  | .ldxAbsy base => Sys2Proof.Machine.execLdxAbsy base s
  | .ldyImm d8 => Sys2Proof.Machine.execLdyImm d8 s
  | .ldyZp d8 => Sys2Proof.Machine.execLdyZp d8 s
  | .ldyZpx d8 => Sys2Proof.Machine.execLdyZpx d8 s
  | .ldyAbs base => Sys2Proof.Machine.execLdyAbs base s
  | .ldyAbsx base => Sys2Proof.Machine.execLdyAbsx base s
  | .staZp d8 => Sys2Proof.Machine.execStaZp d8 s
  | .staZpx d8 => Sys2Proof.Machine.execStaZpx d8 s
  | .staAbs base => Sys2Proof.Machine.execStaAbs base s
  | .staAbsx base => Sys2Proof.Machine.execStaAbsx base s
  | .staAbsy base => Sys2Proof.Machine.execStaAbsy base s
  | .staIndx d8 => Sys2Proof.Machine.execStaIndx d8 s
  | .staIndy d8 => Sys2Proof.Machine.execStaIndy d8 s
  | .stxZp d8 => Sys2Proof.Machine.execStxZp d8 s
  | .stxAbs base => Sys2Proof.Machine.execStxAbs base s
  | .styZp d8 => Sys2Proof.Machine.execStyZp d8 s
  | .styZpx d8 => Sys2Proof.Machine.execStyZpx d8 s
  | .styAbs base => Sys2Proof.Machine.execStyAbs base s
  | .jsr target => Sys2Proof.Machine.execJsr target s
  | .rts => Sys2Proof.Machine.execRts s

end Sys2Proof.Machine
end

