-- ==== Sys2Proof/Machine/FetchExecute.lean ====
section
/-! DEFINITION. One instruction: fetch the opcode, dispatch, run the handler (41_dispatch_execute.md R101), under any
parameters (00_scope.md R5): the opcode map and the zero-page pointer switch are arguments. -/

namespace Sys2Proof.Machine

/-- The meaning of an instruction under any parameters. Only the four instructions that read a zero-page pointer depend on
one (`ZP_POINTER_WRAP`, R91); the others mean what `exec` says. -/
def execWith (cfg : Config) (i : Instr) (s : State) : Host.Outcome State Fault Refusal :=
  match i with
  | .ldaIndx d8 => execLdaIndxWith cfg d8 s
  | .ldaIndy d8 => execLdaIndyWith cfg d8 s
  | .staIndx d8 => execStaIndxWith cfg d8 s
  | .staIndy d8 => execStaIndyWith cfg d8 s
  | .ldaImm _ | .ldaZp _ | .ldaZpx _ | .ldaAbs _ | .ldaAbsx _ | .ldaAbsy _ | .ldxImm _ | .ldxZp _ | .ldxZpy _ | .ldxAbs _
  | .ldxAbsy _ | .ldyImm _ | .ldyZp _ | .ldyZpx _ | .ldyAbs _ | .ldyAbsx _ | .staZp _ | .staZpx _ | .staAbs _ | .staAbsx _
  | .staAbsy _ | .stxZp _ | .stxAbs _ | .styZp _ | .styZpx _ | .styAbs _ | .jsr _ | .rts => exec i s

/-- `Step()` of R101: the opcode fetch, then the handler of the instruction the bytes at `PC` decode to under the opcode
map, or the exception with the byte fetched. The operand bytes are read together with the opcode; the handler would read
the same ones, since nothing is written before it has them (R46; log 12). -/
def fetchExecuteWith (cfg : Config) (s : State) : Host.Outcome State Fault Refusal :=
  match decodeWith cfg.opcodeMap s.fetchWindow with
  | .ok (i, _) => execWith cfg i s.opcodeFetched
  | .error _ => s.opcodeFetched.unimplemented s.fetchByte.1

/-- One step. While `FAULT` is set nothing executes: the same fault again, the state unchanged (R109; D6, log 6).
Otherwise `Step()` of R101. -/
def stepWith (cfg : Config) (s : State) : Host.Outcome State Fault Refusal :=
  match s.fault with
  | .unimplementedOpcode opcode => .fault (.unimplementedOpcode opcode s)
  | .none => fetchExecuteWith cfg s

end Sys2Proof.Machine
end

