-- ==== Sys2Proof/Machine/Step.lean ====
section
/-! DEFINITION. The step of the machine, and placing an instruction where the next step fetches. -/

namespace Sys2Proof.Machine

/-- One step of this machine: `stepWith` at the spec's default parameters. -/
def step (s : State) : Host.Outcome State Fault Refusal := stepWith Config.standard s

/-- `s` with a table word's bytes at `PC` and the latch clear, so that the next step runs that instruction (log 12). -/
def State.withFetchWord (s : State) (nbits w : Nat) : State :=
  { s with mem := s.mem.writeBytes s.pc (tableBytes nbits w), fault := .none }

end Sys2Proof.Machine
end

