-- ==== Sys2Proof/Machine/Execute.lean ====
section
/-! DEFINITION. `Execute(n)`: whole instructions while cycles remain (41_dispatch_execute.md R100 to R113). -/

namespace Sys2Proof.Machine

/-- What `Execute(n)` returns to the host (R100), with the state it leaves. -/
inductive ExecuteOutcome where
  /-- The normal end (R112 (a)): `cyclesUsed`. -/
  | done (left : State) (cyclesUsed : Int)
  /-- `Faulted(UnimplementedOpcode(b))` (R107, R109, R112 (b)): no `cyclesUsed` is returned. -/
  | faulted (left : State) (opcode : Byte)
  /-- The model's refusal of a step; never answered, since no step refuses. -/
  | refused (why : Refusal)
  deriving DecidableEq, Repr

/-- The loop of R100, at most `fuel` instructions, under any parameters: `while rem > 0: Step()`. The counter is tested
between whole instructions only (R103). -/
def executeLoopWith (cfg : Config) : Nat → State → Host.Outcome State Fault Refusal
  | 0, s => .next s
  | fuel + 1, s =>
    if s.rem > 0 then
      match stepWith cfg s with
      | .next t => executeLoopWith cfg fuel t
      | .fault f => .fault f
      | .refused r => .refused r
    else .next s

/-- What an Execute that began in `s` with the budget `n` returns when its loop ends: `cyclesUsed = n - rem`, or the fault.
`rem` exists only during the call (R22): the field is given back the value it had in `s` (log 5). -/
def endExecute (s : State) (n : Int) : Host.Outcome State Fault Refusal → ExecuteOutcome
  | .next t => .done { t with rem := s.rem } (n - t.rem)
  | .fault (.unimplementedOpcode opcode t) => .faulted { t with rem := s.rem } opcode
  | .refused r => .refused r

/-- `Execute(n)` (R100), under any parameters: with `FAULT` set it only reports it (R109); else the loop, with `rem` set to `n`. Every instruction
lowers `rem`, so `n` instructions of fuel are never short (R111). -/
def executeWith (cfg : Config) (n : Int) (s : State) : ExecuteOutcome :=
  match s.fault with
  | .unimplementedOpcode opcode => .faulted s opcode
  | .none => endExecute s n (executeLoopWith cfg n.toNat { s with rem := n })

/-- The loop of this machine. -/
def executeLoop (fuel : Nat) (s : State) : Host.Outcome State Fault Refusal := executeLoopWith Config.standard fuel s

/-- `Execute(n)` of this machine. -/
def execute (n : Int) (s : State) : ExecuteOutcome := executeWith Config.standard n s

end Sys2Proof.Machine
end

