-- ==== Sys2Proof/Machine/Transactions.lean ====
section
/-! DEFINITION. The transactions the host drives the block with (00_scope.md R6, R7; 10_state.md R25, R27). -/

namespace Sys2Proof.Machine

/-- The names of the seven flags (R17). -/
inductive FlagName where
  | c | z | i | d | b | v | n
  deriving DecidableEq, Repr

/-- The value of a flag. -/
def Flags.get (f : Flags) : FlagName → Bool
  | .c => f.c
  | .z => f.z
  | .i => f.i
  | .d => f.d
  | .b => f.b
  | .v => f.v
  | .n => f.n

/-- Set a flag. -/
def Flags.set (f : Flags) (name : FlagName) (value : Bool) : Flags :=
  match name with
  | .c => { f with c := value }
  | .z => { f with z := value }
  | .i => { f with i := value }
  | .d => { f with d := value }
  | .b => { f with b := value }
  | .v => { f with v := value }
  | .n => { f with n := value }

/-- The transactions of R6. The host may read every register, flag, cell and `FAULT`, and write all of them but `FAULT`;
it can neither read nor write `rem` (R25; D10, log 9). -/
inductive Transaction where
  | reset
  | resetAt (addr : Addr)
  | execute (n : Int)
  | peekMem (a : Addr)
  | pokeMem (a : Addr) (v : Byte)
  | peekReg (r : DataReg)
  | pokeReg (r : DataReg) (v : Byte)
  | peekPc
  | pokePc (v : Addr)
  | peekSp
  | pokeSp (v : Addr)
  | peekFlag (f : FlagName)
  | pokeFlag (f : FlagName) (v : Bool)
  | peekFault
  deriving DecidableEq, Repr

/-- What a transaction returns. -/
inductive Reply where
  | ok
  | byte (v : Byte)
  | addr (v : Addr)
  | flag (v : Bool)
  | fault (v : FaultLatch)
  | cyclesUsed (n : Int)
  | faulted (opcode : Byte)
  deriving DecidableEq, Repr

/-- The block: before the first Reset it has no state the spec speaks of (R27; D7, log 8). -/
inductive Block where
  | beforeReset
  | running (s : State)
  deriving DecidableEq, Repr

/-- A transaction on a block that has been reset, under any parameters. -/
def State.transactWith (cfg : Config) (t : Transaction) (s : State) : Except Refusal (State × Reply) :=
  match t with
  | .reset => .ok (s.resetDefaultWith cfg, .ok)
  | .resetAt addr => .ok (s.resetAtWith cfg addr, .ok)
  | .execute n =>
    match executeWith cfg n s with
    | .done left used => .ok (left, .cyclesUsed used)
    | .faulted left opcode => .ok (left, .faulted opcode)
    | .refused r => .error r
  | .peekMem a => .ok (s, .byte (s.mem.read a))
  | .pokeMem a v => .ok ({ s with mem := s.mem.write a v }, .ok)
  | .peekReg r => .ok (s, .byte (s.reg r))
  | .pokeReg r v => .ok (s.setReg r v, .ok)
  | .peekPc => .ok (s, .addr s.pc)
  | .pokePc v => .ok ({ s with pc := v }, .ok)
  | .peekSp => .ok (s, .addr s.sp)
  | .pokeSp v => .ok ({ s with sp := v }, .ok)
  | .peekFlag f => .ok (s, .flag (s.flags.get f))
  | .pokeFlag f v => .ok ({ s with flags := s.flags.set f v }, .ok)
  | .peekFault => .ok (s, .fault s.fault)

/-- A transaction on the block, under any parameters. Before the first Reset only Reset has a meaning; a poke leaves the state as unspecified as
it was, and anything that would read the state is refused (R27; D7, log 8). Every Reset gives the same state (R193). -/
def Block.transactWith (cfg : Config) (t : Transaction) (block : Block) : Except Refusal (Block × Reply) :=
  match block with
  | .running s => (s.transactWith cfg t).map fun r => (.running r.1, r.2)
  | .beforeReset =>
    match t with
    | .reset => .ok (.running (State.resetOf cfg), .ok)
    | .resetAt addr => .ok (.running ((State.resetOf cfg).resetAtWith cfg addr), .ok)
    | .pokeMem _ _ | .pokeReg _ _ | .pokePc _ | .pokeSp _ | .pokeFlag _ _ => .ok (.beforeReset, .ok)
    | .execute _ | .peekMem _ | .peekReg _ | .peekPc | .peekSp | .peekFlag _ | .peekFault => .error .beforeFirstReset

/-- A transaction on a block of this machine that has been reset. -/
def State.transact (t : Transaction) (s : State) : Except Refusal (State × Reply) := s.transactWith Config.standard t

/-- A transaction on a block of this machine. -/
def Block.transact (t : Transaction) (block : Block) : Except Refusal (Block × Reply) :=
  block.transactWith Config.standard t

end Sys2Proof.Machine
end

