-- ==== Sys2Proof/Safety.lean ====
section
/-! DEFINITION. What a run is and what counts as a safe one (41_dispatch_execute.md R112, R113). -/

namespace Sys2Proof.Machine

/-- `t` is reached from `s` by whole instructions. -/
inductive Reaches : State → State → Prop where
  | refl (s : State) : Reaches s s
  | tail {s t u : State} : Reaches s t → step t = .next u → Reaches s u

/-- The bytes at `PC` hold an implemented instruction and no fault is latched: the one condition for a step to complete
(R113, R171). -/
def State.Ready (s : State) : Prop := s.fault = .none ∧ ∃ o, opcodeOf Config.standard.opcodeMap (s.mem.read s.pc) = some o

/-- A safe state: no run from it ever dispatches an unimplemented opcode ("never a good final state", R112). -/
def State.Safe (s : State) : Prop := ∀ t, Reaches s t → t.Ready

/-- An `Execute(n)` that ends normally (R112 (a)). -/
def ExecuteOutcome.endsNormally : ExecuteOutcome → Bool
  | .done _ _ => true
  | .faulted _ _ => false
  | .refused _ => false

end Sys2Proof.Machine
end

