-- ==== Sys2Proof/Certificates/Slice0/Obligations.lean ====
section
/-! DEFINITION. The statements for the provers. Those about one instruction's effect run it where 41_dispatch_execute.md R101
says a handler body starts: in `s.opcodeFetched`, the state after the opcode fetch from `s` (`PC` one further, one cycle
consumed), and compare the result with `s`, so that lengths and costs are the rules' own totals. Every state is
`s.opcodeFetched` of some `s`, so nothing is shut out. The encoding clause is stated for every opcode map, as R57
asks: the byte VALUES (log 1) of all 32 rows stand in TableWordsDecode. The statements are about the machine at the spec's
default parameters; those of the last section about every setting of the parameters of 00_scope.md R5. -/

namespace Sys2Proof.Claims

open Sys2Proof.Machine

/-- `SetZN(v)` between two flag groups (R92): `Z` iff `v` is 0x00, `N` iff bit 7 is set, that is from 0x80 on; the five
storage-only flags bit-identical. -/
def FlagsOfValue (v : Byte) (f g : Flags) : Prop :=
  (g.z = true ↔ v = 0x00) ∧ (g.n = true ↔ 0x80 ≤ v.toNat) ∧
  g.c = f.c ∧ g.i = f.i ∧ g.d = f.d ∧ g.b = f.b ∧ g.v = f.v

/-- What a load of `v` into `r` leaves, result and frame (R120, R139): the register, `Z` and `N`, `PC` past `length` bytes,
`rem` lower by `cost`; the other registers, `SP`, the other flags, `FAULT` and every byte of memory as before. -/
def Loaded (r : DataReg) (v : Byte) (length cost : Nat) (s t : State) : Prop :=
  t.reg r = v ∧ (∀ q, q ≠ r → t.reg q = s.reg q) ∧ FlagsOfValue v s.flags t.flags ∧
  t.pc = s.pc + BitVec.ofNat 16 length ∧ t.rem = s.rem - (cost : Int) ∧ t.sp = s.sp ∧ t.fault = s.fault ∧
  ∀ a, t.mem.read a = s.mem.read a

/-- What a store of `r` at `ea` leaves, result and frame (R140, R153): the one cell, `PC` past `length` bytes, `rem` lower by
`cost`; every other byte of memory, every register, all seven flags, `SP` and `FAULT` as before. -/
def Stored (r : DataReg) (ea : Addr) (length cost : Nat) (s t : State) : Prop :=
  t.mem.read ea = s.reg r ∧ (∀ a, a ≠ ea → t.mem.read a = s.mem.read a) ∧ (∀ q, t.reg q = s.reg q) ∧
  t.flags = s.flags ∧ t.pc = s.pc + BitVec.ofNat 16 length ∧ t.rem = s.rem - (cost : Int) ∧ t.sp = s.sp ∧
  t.fault = s.fault

/-- The encoding of an instruction for every opcode map: its opcode's byte, then these operand bytes (R50, R51, R57). -/
def Encoded (i : Instr) (o : Opcode) (operands : List Byte) : Prop :=
  ∀ map : OpcodeMap, encodeWith map i = map o :: operands

/-- The 16-bit value in two cells, low byte first, in integers (R35, R38). -/
def wordAt (m : Memory) (a : Addr) : Addr := BitVec.ofNat 16 ((m.read (a + 1)).toNat * 256 + (m.read a).toNat)

/-- The page-crossing cycle (R83), in integers. -/
def crossing (base : Addr) (idx : Byte) : Nat := if base.toNat % 256 + idx.toNat > 0xFF then 1 else 0

/-- A zero-page address (R79), in integers. -/
def zp (d8 : Byte) : Addr := BitVec.ofNat 16 d8.toNat

/-- A zero-page indexed address: the sum wraps within page 0 (R80, R81). -/
def zpIndexed (d8 idx : Byte) : Addr := BitVec.ofNat 16 ((d8.toNat + idx.toNat) % 256)

/-- An indexed address: the sum wraps modulo 2^16 (R84). -/
def absIndexed (base : Addr) (idx : Byte) : Addr := BitVec.ofNat 16 ((base.toNat + idx.toNat) % 65536)

/-- The cost column of R56 and the total column of R203, opcode fetch included. -/
def cost (i : Instr) (s : State) : Nat :=
  match i with
  | .ldaImm _ | .ldxImm _ | .ldyImm _ => 2
  | .ldaZp _ | .ldxZp _ | .ldyZp _ | .staZp _ | .stxZp _ | .styZp _ => 3
  | .ldaZpx _ | .ldxZpy _ | .ldyZpx _ | .staZpx _ | .styZpx _ => 4
  | .ldaAbs _ | .ldxAbs _ | .ldyAbs _ | .staAbs _ | .stxAbs _ | .styAbs _ => 4
  | .ldaAbsx base | .ldyAbsx base => 4 + crossing base s.x
  | .ldaAbsy base | .ldxAbsy base => 4 + crossing base s.y
  | .ldaIndx _ | .staIndx _ | .staIndy _ | .jsr _ | .rts => 6
  | .ldaIndy d8 => 5 + crossing (wordAt s.mem (zp d8)) s.y
  | .staAbsx _ | .staAbsy _ => 5

/-- The data register an instruction is the load of, if it is a load (R12). -/
def loadTarget (i : Instr) : Option DataReg :=
  match i with
  | .ldaImm _ | .ldaZp _ | .ldaZpx _ | .ldaAbs _ | .ldaAbsx _ | .ldaAbsy _ | .ldaIndx _ | .ldaIndy _ => some .a
  | .ldxImm _ | .ldxZp _ | .ldxZpy _ | .ldxAbs _ | .ldxAbsy _ => some .x
  | .ldyImm _ | .ldyZp _ | .ldyZpx _ | .ldyAbs _ | .ldyAbsx _ => some .y
  | .staZp _ | .staZpx _ | .staAbs _ | .staAbsx _ | .staAbsy _ | .staIndx _ | .staIndy _ | .stxZp _ | .stxAbs _
  | .styZp _ | .styZpx _ | .styAbs _ | .jsr _ | .rts => none

/-- The addresses an instruction may write, run from `s` (the last column of R40). -/
def storedAt (i : Instr) (s : State) : List Addr :=
  match i with
  | .staZp d8 | .stxZp d8 | .styZp d8 => [zp d8]
  | .staZpx d8 | .styZpx d8 => [zpIndexed d8 s.x]
  | .staAbs ea | .stxAbs ea | .styAbs ea => [ea]
  | .staAbsx base => [absIndexed base s.x]
  | .staAbsy base => [absIndexed base s.y]
  | .staIndx d8 => [wordAt s.mem (zpIndexed d8 s.x)]
  | .staIndy d8 => [absIndexed (wordAt s.mem (zp d8)) s.y]
  | .jsr _ => [s.sp, s.sp + 1]
  | .ldaImm _ | .ldaZp _ | .ldaZpx _ | .ldaAbs _ | .ldaAbsx _ | .ldaAbsy _ | .ldaIndx _ | .ldaIndy _ | .ldxImm _
  | .ldxZp _ | .ldxZpy _ | .ldxAbs _ | .ldxAbsy _ | .ldyImm _ | .ldyZp _ | .ldyZpx _ | .ldyAbs _ | .ldyAbsx _
  | .rts => []

/-- The bytes at `PC` are the bytes of `i` under an opcode map, at consecutive addresses modulo 2^16. -/
def HoldsUnder (map : OpcodeMap) (s : State) (i : Instr) : Prop :=
  ∀ k (h : k < (encodeWith map i).length), s.mem.read (s.pc + BitVec.ofNat 16 k) = (encodeWith map i)[k]

/-- The same under the opcode map of this machine. -/
abbrev HoldsAt (s : State) (i : Instr) : Prop := HoldsUnder Config.standard.opcodeMap s i

/-- The value of the zero-page pointer at `p` for either setting of `ZP_POINTER_WRAP` (R91), in integers: the low byte at
`p`, the high byte at the 16-bit successor of its location, or, with the switch on, at the 8-bit successor of `p`. -/
def pointerWith (wrap : Bool) (m : Memory) (p : Byte) : Addr :=
  BitVec.ofNat 16 ((m.read (if wrap then BitVec.ofNat 16 ((p.toNat + 1) % 256) else BitVec.ofNat 16 (p.toNat + 1))).toNat
    * 256 + (m.read (zp p)).toNat)

/-- Two states that differ in the flags at most. -/
def EqualButFlags (s t : State) : Prop := { s with flags := t.flags } = t

/-- A block whose memory, if it has been reset, is in canonical form. -/
def BlockWf (b : Block) : Prop := ∀ s, b = .running s → s.wf

end Sys2Proof.Claims

open Sys2Proof Sys2Proof.Machine Sys2Proof.Claims

/-! ### Loads (42_loads.md) -/

/-- R121, R129, R134 with R78: the immediate loads. The operand byte is the data; length 2, cost 2. -/
def Obligations.LoadImmediateResult : Prop :=
  ∀ (s : State) (d8 : Byte),
    (Encoded (.ldaImm d8) .ldaImmediate [d8] ∧
      ∃ t, exec (.ldaImm d8) s.opcodeFetched = .next t ∧ Loaded .a d8 2 2 s t) ∧
    (Encoded (.ldxImm d8) .ldxImmediate [d8] ∧
      ∃ t, exec (.ldxImm d8) s.opcodeFetched = .next t ∧ Loaded .x d8 2 2 s t) ∧
    (Encoded (.ldyImm d8) .ldyImmediate [d8] ∧
      ∃ t, exec (.ldyImm d8) s.opcodeFetched = .next t ∧ Loaded .y d8 2 2 s t)

/-- R122, R130, R135 with R79: the zero-page loads, from 0x00nn; length 2, cost 3. -/
def Obligations.LoadZeroPageResult : Prop :=
  ∀ (s : State) (d8 : Byte),
    (Encoded (.ldaZp d8) .ldaZeropage [d8] ∧
      ∃ t, exec (.ldaZp d8) s.opcodeFetched = .next t ∧ Loaded .a (s.mem.read (zp d8)) 2 3 s t) ∧
    (Encoded (.ldxZp d8) .ldxZeropage [d8] ∧
      ∃ t, exec (.ldxZp d8) s.opcodeFetched = .next t ∧ Loaded .x (s.mem.read (zp d8)) 2 3 s t) ∧
    (Encoded (.ldyZp d8) .ldyZeropage [d8] ∧
      ∃ t, exec (.ldyZp d8) s.opcodeFetched = .next t ∧ Loaded .y (s.mem.read (zp d8)) 2 3 s t)

/-- R123, R131, R136 with R80, R81: the zero-page indexed loads; the sum wraps within page 0; length 2, cost 4 always. -/
def Obligations.LoadZeroPageIndexedResult : Prop :=
  ∀ (s : State) (d8 : Byte),
    (Encoded (.ldaZpx d8) .ldaZeropageX [d8] ∧
      ∃ t, exec (.ldaZpx d8) s.opcodeFetched = .next t ∧ Loaded .a (s.mem.read (zpIndexed d8 s.x)) 2 4 s t) ∧
    (Encoded (.ldxZpy d8) .ldxZeropageY [d8] ∧
      ∃ t, exec (.ldxZpy d8) s.opcodeFetched = .next t ∧ Loaded .x (s.mem.read (zpIndexed d8 s.y)) 2 4 s t) ∧
    (Encoded (.ldyZpx d8) .ldyZeropageX [d8] ∧
      ∃ t, exec (.ldyZpx d8) s.opcodeFetched = .next t ∧ Loaded .y (s.mem.read (zpIndexed d8 s.x)) 2 4 s t)

/-- R124, R132, R137 with R82: the absolute loads; low operand byte first; length 3, cost 4. -/
def Obligations.LoadAbsoluteResult : Prop :=
  ∀ (s : State) (ea : Addr),
    (Encoded (.ldaAbs ea) .ldaAbsolute [loByte ea, hiByte ea] ∧
      ∃ t, exec (.ldaAbs ea) s.opcodeFetched = .next t ∧ Loaded .a (s.mem.read ea) 3 4 s t) ∧
    (Encoded (.ldxAbs ea) .ldxAbsolute [loByte ea, hiByte ea] ∧
      ∃ t, exec (.ldxAbs ea) s.opcodeFetched = .next t ∧ Loaded .x (s.mem.read ea) 3 4 s t) ∧
    (Encoded (.ldyAbs ea) .ldyAbsolute [loByte ea, hiByte ea] ∧
      ∃ t, exec (.ldyAbs ea) s.opcodeFetched = .next t ∧ Loaded .y (s.mem.read ea) 3 4 s t)

/-- R125, R138 with R84: the absolute,X loads; length 3, cost 4, one more on a page crossing. -/
def Obligations.LoadAbsoluteXResult : Prop :=
  ∀ (s : State) (base : Addr),
    (Encoded (.ldaAbsx base) .ldaAbsoluteX [loByte base, hiByte base] ∧
      ∃ t, exec (.ldaAbsx base) s.opcodeFetched = .next t ∧
        Loaded .a (s.mem.read (absIndexed base s.x)) 3 (4 + crossing base s.x) s t) ∧
    (Encoded (.ldyAbsx base) .ldyAbsoluteX [loByte base, hiByte base] ∧
      ∃ t, exec (.ldyAbsx base) s.opcodeFetched = .next t ∧
        Loaded .y (s.mem.read (absIndexed base s.x)) 3 (4 + crossing base s.x) s t)

/-- R126, R133 with R85: the absolute,Y loads; length 3, cost 4, one more on a page crossing. -/
def Obligations.LoadAbsoluteYResult : Prop :=
  ∀ (s : State) (base : Addr),
    (Encoded (.ldaAbsy base) .ldaAbsoluteY [loByte base, hiByte base] ∧
      ∃ t, exec (.ldaAbsy base) s.opcodeFetched = .next t ∧
        Loaded .a (s.mem.read (absIndexed base s.y)) 3 (4 + crossing base s.y) s t) ∧
    (Encoded (.ldxAbsy base) .ldxAbsoluteY [loByte base, hiByte base] ∧
      ∃ t, exec (.ldxAbsy base) s.opcodeFetched = .next t ∧
        Loaded .x (s.mem.read (absIndexed base s.y)) 3 (4 + crossing base s.y) s t)

/-- R127 with R88, R73: LDA (zp,X); the pointer's location wraps within page 0, its high byte is at the 16-bit successor
(at 0x0100 for location 0x00FF: R73's own words; the switch of R91 is at its default, log 7); length 2, cost 6. -/
def Obligations.LoadIndirectXResult : Prop :=
  ∀ (s : State) (d8 : Byte),
    Encoded (.ldaIndx d8) .ldaIndirectX [d8] ∧
    ∃ t, exec (.ldaIndx d8) s.opcodeFetched = .next t ∧
      Loaded .a (s.mem.read (wordAt s.mem (zpIndexed d8 s.x))) 2 6 s t

/-- R128 with R89, R73: LDA (zp),Y; `Y` is added to the pointer's value; length 2, cost 5, one more on a page crossing
(the switch of R91 at its default, log 7). -/
def Obligations.LoadIndirectYResult : Prop :=
  ∀ (s : State) (d8 : Byte),
    Encoded (.ldaIndy d8) .ldaIndirectY [d8] ∧
    ∃ t, exec (.ldaIndy d8) s.opcodeFetched = .next t ∧
      Loaded .a (s.mem.read (absIndexed (wordAt s.mem (zp d8)) s.y)) 2
        (5 + crossing (wordAt s.mem (zp d8)) s.y) s t

/-! ### Stores (43_stores.md) -/

/-- R141, R148, R150: the zero-page stores; length 2, cost 3. -/
def Obligations.StoreZeroPageResult : Prop :=
  ∀ (s : State) (d8 : Byte), s.wf →
    (Encoded (.staZp d8) .staZeropage [d8] ∧
      ∃ t, exec (.staZp d8) s.opcodeFetched = .next t ∧ Stored .a (zp d8) 2 3 s t) ∧
    (Encoded (.stxZp d8) .stxZeropage [d8] ∧
      ∃ t, exec (.stxZp d8) s.opcodeFetched = .next t ∧ Stored .x (zp d8) 2 3 s t) ∧
    (Encoded (.styZp d8) .styZeropage [d8] ∧
      ∃ t, exec (.styZp d8) s.opcodeFetched = .next t ∧ Stored .y (zp d8) 2 3 s t)

/-- R142, R151: the zero-page,X stores; the address wraps within page 0; length 2, cost 4. -/
def Obligations.StoreZeroPageXResult : Prop :=
  ∀ (s : State) (d8 : Byte), s.wf →
    (Encoded (.staZpx d8) .staZeropageX [d8] ∧
      ∃ t, exec (.staZpx d8) s.opcodeFetched = .next t ∧ Stored .a (zpIndexed d8 s.x) 2 4 s t) ∧
    (Encoded (.styZpx d8) .styZeropageX [d8] ∧
      ∃ t, exec (.styZpx d8) s.opcodeFetched = .next t ∧ Stored .y (zpIndexed d8 s.x) 2 4 s t)

/-- R143, R149, R152: the absolute stores; length 3, cost 4. -/
def Obligations.StoreAbsoluteResult : Prop :=
  ∀ (s : State) (ea : Addr), s.wf →
    (Encoded (.staAbs ea) .staAbsolute [loByte ea, hiByte ea] ∧
      ∃ t, exec (.staAbs ea) s.opcodeFetched = .next t ∧ Stored .a ea 3 4 s t) ∧
    (Encoded (.stxAbs ea) .stxAbsolute [loByte ea, hiByte ea] ∧
      ∃ t, exec (.stxAbs ea) s.opcodeFetched = .next t ∧ Stored .x ea 3 4 s t) ∧
    (Encoded (.styAbs ea) .styAbsolute [loByte ea, hiByte ea] ∧
      ∃ t, exec (.styAbs ea) s.opcodeFetched = .next t ∧ Stored .y ea 3 4 s t)

/-- R144, R145 with R86, R87: STA absolute,X and absolute,Y; length 3, cost 5 whether or not a page is crossed. -/
def Obligations.StoreAbsoluteIndexedResult : Prop :=
  ∀ (s : State) (base : Addr), s.wf →
    (Encoded (.staAbsx base) .staAbsoluteX [loByte base, hiByte base] ∧
      ∃ t, exec (.staAbsx base) s.opcodeFetched = .next t ∧ Stored .a (absIndexed base s.x) 3 5 s t) ∧
    (Encoded (.staAbsy base) .staAbsoluteY [loByte base, hiByte base] ∧
      ∃ t, exec (.staAbsy base) s.opcodeFetched = .next t ∧ Stored .a (absIndexed base s.y) 3 5 s t)

/-- R146, R147 with R88, R90, R73: STA (zp,X) and (zp),Y; the pointer is read before the write; length 2, cost 6 always
(the switch of R91 at its default, log 7). -/
def Obligations.StoreIndirectResult : Prop :=
  ∀ (s : State) (d8 : Byte), s.wf →
    (Encoded (.staIndx d8) .staIndirectX [d8] ∧
      ∃ t, exec (.staIndx d8) s.opcodeFetched = .next t ∧
        Stored .a (wordAt s.mem (zpIndexed d8 s.x)) 2 6 s t) ∧
    (Encoded (.staIndy d8) .staIndirectY [d8] ∧
      ∃ t, exec (.staIndy d8) s.opcodeFetched = .next t ∧
        Stored .a (absIndexed (wordAt s.mem (zp d8)) s.y) 2 6 s t)

/-! ### JSR, RTS (44_subroutine.md) -/

/-- R160: JSR writes the address of its own last byte (`@a +_16 2`) as a word at `SP`, low byte first, jumps to its operand,
costs 6, and changes nothing else. (`SP` a 16-bit address: the spec's decision D4, log 3.) -/
def Obligations.JsrResult : Prop :=
  ∀ (s : State) (target : Addr), s.wf →
    Encoded (.jsr target) .jsr [loByte target, hiByte target] ∧
    ∃ t, exec (.jsr target) s.opcodeFetched = .next t ∧
      t.mem.read s.sp = loByte (s.pc + 2) ∧ t.mem.read (s.sp + 1) = hiByte (s.pc + 2) ∧
      (∀ a, a ≠ s.sp → a ≠ s.sp + 1 → t.mem.read a = s.mem.read a) ∧
      t.pc = target ∧ t.rem = s.rem - 6 ∧ t.sp = s.sp ∧ (∀ q, t.reg q = s.reg q) ∧ t.flags = s.flags ∧
      t.fault = s.fault

/-- R161: RTS jumps to the word at `SP` plus 1, costs 6 (C3), and changes nothing else: the word stays in memory. -/
def Obligations.RtsResult : Prop :=
  ∀ s : State,
    Encoded .rts .rts [] ∧
    ∃ t, exec .rts s.opcodeFetched = .next t ∧
      t.pc = wordAt s.mem s.sp + 1 ∧ t.rem = s.rem - 6 ∧ t.sp = s.sp ∧ (∀ q, t.reg q = s.reg q) ∧
      t.flags = s.flags ∧ t.fault = s.fault ∧ ∀ a, t.mem.read a = s.mem.read a

/-- R162: a JSR and an RTS that finds the return word as the JSR left it, whatever ran in between (no write to the stack
word, `SP` where it was), resume after the JSR. -/
def Obligations.ReturnResumesAfterCall : Prop :=
  ∀ (s t u v : State) (target : Addr), s.wf →
    exec (.jsr target) s.opcodeFetched = .next t →
    u.sp = t.sp → u.mem.read u.sp = t.mem.read t.sp → u.mem.read (u.sp + 1) = t.mem.read (t.sp + 1) →
    exec .rts u.opcodeFetched = .next v →
    v.pc = s.pc + 3

/-- R163: nested calls do not work, by design. Of two calls at the same `SP` the second one's return word is the one that
stands, and every RTS that follows with no write to the stack word resumes after the SECOND call, the RTS meant for the
first one too. -/
def Obligations.NestedCallLosesOuterReturn : Prop :=
  ∀ (s₁ t₁ s₂ t₂ u₁ v₁ u₂ v₂ : State) (outer inner : Addr), s₂.wf →
    exec (.jsr outer) s₁.opcodeFetched = .next t₁ → s₂.sp = t₁.sp →
    exec (.jsr inner) s₂.opcodeFetched = .next t₂ →
    u₁.sp = t₂.sp → u₁.mem.read u₁.sp = t₂.mem.read t₂.sp → u₁.mem.read (u₁.sp + 1) = t₂.mem.read (t₂.sp + 1) →
    exec .rts u₁.opcodeFetched = .next v₁ →
    u₂.sp = v₁.sp → u₂.mem.read u₂.sp = v₁.mem.read v₁.sp → u₂.mem.read (u₂.sp + 1) = v₁.mem.read (v₁.sp + 1) →
    exec .rts u₂.opcodeFetched = .next v₂ →
    t₂.sp = s₁.sp ∧ v₁.pc = s₂.pc + 3 ∧ v₂.pc = s₂.pc + 3

/-! ### Resolver and flag updater (40_fetch_addressing_flags.md) -/

/-- R92: the three outcomes of `SetZN`, whatever the flags held; it costs no cycle and writes nothing but `Z` and `N`. -/
def Obligations.FlagUpdaterOutcomes : Prop :=
  ∀ (f : Flags) (v : Byte),
    FlagsOfValue v f (f.setZN v) ∧ (∀ s : State, s.setZN v = { s with flags := s.flags.setZN v }) ∧
    (v.toNat = 0 → (f.setZN v).z = true ∧ (f.setZN v).n = false) ∧
    (0x01 ≤ v.toNat ∧ v.toNat ≤ 0x7F → (f.setZN v).z = false ∧ (f.setZN v).n = false) ∧
    (0x80 ≤ v.toNat → (f.setZN v).z = false ∧ (f.setZN v).n = true)

/-- R83: `Cross` is 1 exactly when the integer sum of the two bytes exceeds 0xFF; it agrees with "the page of the sum is
another page" and with "the low byte of the sum is below the low byte of the base", the 16-bit wrap included; index 0 never
crosses; and the sum never lies 0x100 above the base, the test C4 discards. -/
def Obligations.CrossIsPageCrossing : Prop :=
  ∀ (base : Addr) (idx : Byte),
    cross base idx = crossing base idx ∧
    (cross base idx = 1 ↔ hiByte (base + zext16 idx) ≠ hiByte base) ∧
    (cross base idx = 1 ↔ (loByte (base + zext16 idx)).toNat < (loByte base).toNat) ∧
    cross base 0x00 = 0 ∧
    (base + zext16 idx - base).toNat < 0x100

/-- R77: the read and the write variant of an indexed mode compute the same address and leave the same state but for
`rem`, which the read variant lowers by the crossing where the write variant lowers it by one. -/
def Obligations.VariantsDifferInCyclesOnly : Prop :=
  ∀ (s : State) (base : Addr) (d8 : Byte),
    ((addrAbsxRead base s).1 = (addrAbsxWrite base s).1 ∧
      ∃ r, (addrAbsxRead base s).2 = { (addrAbsxWrite base s).2 with rem := r } ∧
        r = (addrAbsxWrite base s).2.rem + 1 - (crossing base s.x : Int)) ∧
    ((addrAbsyRead base s).1 = (addrAbsyWrite base s).1 ∧
      ∃ r, (addrAbsyRead base s).2 = { (addrAbsyWrite base s).2 with rem := r } ∧
        r = (addrAbsyWrite base s).2.rem + 1 - (crossing base s.y : Int)) ∧
    ((addrIndyRead d8 s).1 = (addrIndyWrite d8 s).1 ∧
      ∃ r, (addrIndyRead d8 s).2 = { (addrIndyWrite d8 s).2 with rem := r } ∧
        r = (addrIndyWrite d8 s).2.rem + 1 - (crossing (wordAt s.mem (zp d8)) s.y : Int))

/-- R91 and D8: at every pointer location but 0x00FF the two settings of `ZP_POINTER_WRAP` agree; at 0x00FF the high byte
comes from 0x0100 with the switch off and from 0x0000 with it on. This machine has it off (log 7). -/
def Obligations.ZeroPagePointerSwitch : Prop :=
  (∀ (s : State) (p : Byte), p ≠ 0xFF → readPointer true p s = readPointer false p s) ∧
  (∀ s : State, (readPointer false 0xFF s).1 = word (s.mem.read 0x0100) (s.mem.read 0x00FF)) ∧
  (∀ s : State, (readPointer true 0xFF s).1 = word (s.mem.read 0x0000) (s.mem.read 0x00FF)) ∧
  (∀ (wrap : Bool) (s : State) (p : Byte), (readPointer wrap p s).2 = s.tick 2) ∧
  (∀ (s : State) (d8 : Byte), addrIndx d8 s = addrIndxWith false d8 s ∧
    addrIndyRead d8 s = addrIndyWith false .read d8 s ∧ addrIndyWrite d8 s = addrIndyWith false .write d8 s)

/-! ### Memory (20_memory.md) and primitives -/

/-- R70, R71: the fetch primitives: the byte or the little-endian word at `PC`, `PC` and `rem` moved, all else as before. -/
def Obligations.FetchPrimitives : Prop :=
  ∀ s : State,
    (s.fetchByte.1 = s.mem.read s.pc ∧ s.fetchByte.2 = { s with pc := s.pc + 1, rem := s.rem - 1 }) ∧
    (s.fetchWord.1 = wordAt s.mem s.pc ∧ s.fetchWord.2 = { s with pc := s.pc + 2, rem := s.rem - 2 })

/-- R72, R73, R74, R75: the data primitives: one cycle a byte, `PC` untouched, words little-endian with the high byte at the
16-bit successor. -/
def Obligations.DataPrimitives : Prop :=
  ∀ (s : State) (a : Addr) (b : Byte) (w : Addr), s.wf →
    (s.readByte a).1 = s.mem.read a ∧ (s.readByte a).2 = { s with rem := s.rem - 1 } ∧
    (s.readWord a).1 = wordAt s.mem a ∧ (s.readWord a).2 = { s with rem := s.rem - 2 } ∧
    (s.writeByte a b).mem.read a = b ∧
    (∀ c, c ≠ a → (s.writeByte a b).mem.read c = s.mem.read c) ∧
    s.writeByte a b = { s with mem := (s.writeByte a b).mem, rem := s.rem - 1 } ∧
    (s.writeWord a w).mem.read a = loByte w ∧ (s.writeWord a w).mem.read (a + 1) = hiByte w ∧
    (∀ c, c ≠ a → c ≠ a + 1 → (s.writeWord a w).mem.read c = s.mem.read c) ∧
    s.writeWord a w = { s with mem := (s.writeWord a w).mem, rem := s.rem - 2 }

/-- R35, R36, R38: a word read after a word write gives the word, at every address, 0xFFFF included; a byte read of either
half gives that half. -/
def Obligations.WordWriteThenRead : Prop :=
  ∀ (m : Memory) (a v : Addr), m.wf →
    (m.writeWord a v).readWord a = v ∧ wordAt (m.writeWord a v) a = v ∧
    ((m.writeWord a v).read a).toNat = v.toNat % 256 ∧ ((m.writeWord a v).read (a + 1)).toNat = v.toNat / 256 ∧
    ∀ c, c ≠ a → c ≠ a + 1 → (m.writeWord a v).read c = m.read c

/-- Log 13: the memory is the function it stands for. In canonical form two memories that read alike everywhere are equal,
so the order in which cells were written does not show, and a write of what a cell holds changes nothing. -/
def Obligations.CanonicalMemoryIsExtensional : Prop :=
  (∀ m n : Memory, m.wf → n.wf → (∀ a, m.read a = n.read a) → m = n) ∧
  (∀ (m : Memory) (a b : Addr) (v w : Byte), m.wf → a ≠ b → (m.write a v).write b w = (m.write b w).write a v) ∧
  (∀ (m : Memory) (a : Addr), m.wf → m.write a (m.read a) = m)

/-! ### Encoding (30_encoding.md) -/

/-- R57: for every injective opcode map, decoding an encoded instruction gives it back, with every operand, whatever bytes
follow it. -/
def Obligations.DecodeOfEncode : Prop :=
  ∀ (map : OpcodeMap), map.wellFormed = true → ∀ (i : Instr) (rest : List Byte), i.wellFormed = true →
    decodeWith map (encodeWith map i ++ rest) = .ok (i, rest)

/-- R50, R54: for every opcode map, whatever the decoder accepts is the encoding of what it answers, and the bytes after
it are left: no byte is dropped, none is read twice. -/
def Obligations.EncodeOfDecode : Prop :=
  ∀ (map : OpcodeMap) (bytes rest : List Byte) (i : Instr),
    decodeWith map bytes = .ok (i, rest) → bytes = encodeWith map i ++ rest

/-- All 32 rows of R56, each with every operand byte (R53: low byte first), and one word of two operand bytes in
full. The byte values are the spec's default for `OPCODE_MAP`, log 1. -/
def Obligations.TableWordsDecode : Prop :=
  decode [0x20, 0x34, 0x12] = .ok (.jsr 0x1234, []) ∧
  ∀ (d8 lo8 hi8 : Byte) (rest : List Byte),
    decode (0xA9 :: d8 :: rest) = .ok (.ldaImm d8, rest) ∧
    decode (0xA5 :: d8 :: rest) = .ok (.ldaZp d8, rest) ∧
    decode (0xB5 :: d8 :: rest) = .ok (.ldaZpx d8, rest) ∧
    decode (0xAD :: lo8 :: hi8 :: rest) = .ok (.ldaAbs (word hi8 lo8), rest) ∧
    decode (0xBD :: lo8 :: hi8 :: rest) = .ok (.ldaAbsx (word hi8 lo8), rest) ∧
    decode (0xB9 :: lo8 :: hi8 :: rest) = .ok (.ldaAbsy (word hi8 lo8), rest) ∧
    decode (0xA1 :: d8 :: rest) = .ok (.ldaIndx d8, rest) ∧
    decode (0xB1 :: d8 :: rest) = .ok (.ldaIndy d8, rest) ∧
    decode (0xA2 :: d8 :: rest) = .ok (.ldxImm d8, rest) ∧
    decode (0xA6 :: d8 :: rest) = .ok (.ldxZp d8, rest) ∧
    decode (0xB6 :: d8 :: rest) = .ok (.ldxZpy d8, rest) ∧
    decode (0xAE :: lo8 :: hi8 :: rest) = .ok (.ldxAbs (word hi8 lo8), rest) ∧
    decode (0xBE :: lo8 :: hi8 :: rest) = .ok (.ldxAbsy (word hi8 lo8), rest) ∧
    decode (0xA0 :: d8 :: rest) = .ok (.ldyImm d8, rest) ∧
    decode (0xA4 :: d8 :: rest) = .ok (.ldyZp d8, rest) ∧
    decode (0xB4 :: d8 :: rest) = .ok (.ldyZpx d8, rest) ∧
    decode (0xAC :: lo8 :: hi8 :: rest) = .ok (.ldyAbs (word hi8 lo8), rest) ∧
    decode (0xBC :: lo8 :: hi8 :: rest) = .ok (.ldyAbsx (word hi8 lo8), rest) ∧
    decode (0x85 :: d8 :: rest) = .ok (.staZp d8, rest) ∧
    decode (0x95 :: d8 :: rest) = .ok (.staZpx d8, rest) ∧
    decode (0x8D :: lo8 :: hi8 :: rest) = .ok (.staAbs (word hi8 lo8), rest) ∧
    decode (0x9D :: lo8 :: hi8 :: rest) = .ok (.staAbsx (word hi8 lo8), rest) ∧
    decode (0x99 :: lo8 :: hi8 :: rest) = .ok (.staAbsy (word hi8 lo8), rest) ∧
    decode (0x81 :: d8 :: rest) = .ok (.staIndx d8, rest) ∧
    decode (0x91 :: d8 :: rest) = .ok (.staIndy d8, rest) ∧
    decode (0x86 :: d8 :: rest) = .ok (.stxZp d8, rest) ∧
    decode (0x8E :: lo8 :: hi8 :: rest) = .ok (.stxAbs (word hi8 lo8), rest) ∧
    decode (0x84 :: d8 :: rest) = .ok (.styZp d8, rest) ∧
    decode (0x94 :: d8 :: rest) = .ok (.styZpx d8, rest) ∧
    decode (0x8C :: lo8 :: hi8 :: rest) = .ok (.styAbs (word hi8 lo8), rest) ∧
    decode (0x20 :: lo8 :: hi8 :: rest) = .ok (.jsr (word hi8 lo8), rest) ∧
    decode (0x60 :: rest) = .ok (.rts, rest)

/-- R52, R51: the length of an instruction is that of its opcode's format, the number of its bytes, and how far `PC` moves
in every instruction but JSR and RTS (R139, R153). -/
def Obligations.LengthIsEncodedLength : Prop :=
  ∀ (i : Instr) (map : OpcodeMap),
    (encodeWith map i).length = i.length ∧ 1 ≤ i.length ∧ i.length ≤ 3 ∧
    ∀ s t : State, exec i s.opcodeFetched = .next t → i.opcode ≠ .jsr → i.opcode ≠ .rts →
      t.pc = s.pc + BitVec.ofNat 16 i.length

/-! ### Steps (41_dispatch_execute.md, 60_exceptions.md) -/

/-- R101: when the bytes at `PC` decode to a well-formed instruction, a step is the opcode fetch (`PC` one further, one
cycle) and then exec of that instruction. -/
def Obligations.StepRunsDecodedInstruction : Prop :=
  ∀ (s : State) (i : Instr) (rest : List Byte),
    s.fault = .none → decode s.fetchWindow = .ok (i, rest) → i.wellFormed = true →
    s.opcodeFetched = { s with pc := s.pc + 1, rem := s.rem - 1 } ∧ step s = exec i s.opcodeFetched

/-- R50, R101: an instruction whose bytes stand at `PC`, at consecutive addresses modulo 2^16, straddling the top of memory
or not, is the one the step runs. -/
def Obligations.EncodedInstructionRuns : Prop :=
  ∀ (s : State) (i : Instr), s.fault = .none → HoldsAt s i → step s = exec i s.opcodeFetched

/-- R113, R171: every instruction completes, from every state, whatever its operands; it neither faults nor is refused. -/
def Obligations.EveryInstructionCompletes : Prop :=
  ∀ (i : Instr) (s : State), ∃ t, exec i s = .next t ∧ t.fault = s.fault

/-- R58, R101, R173: an opcode byte outside the map faults with that byte and leaves the state of R173: `PC` past the byte,
`rem` lowered by 1, `FAULT` set, everything else as before (the latch: the spec's decision D6, log 6). -/
def Obligations.UnimplementedOpcodeFaults : Prop :=
  ∀ s : State, s.fault = .none → (∀ o : Opcode, standardOpcodeMap o ≠ s.mem.read s.pc) →
    step s = .fault (.unimplementedOpcode (s.mem.read s.pc)
      { s with pc := s.pc + 1, rem := s.rem - 1, fault := .unimplementedOpcode (s.mem.read s.pc) })

/-- R58, R174, R183: with no fault latched a step completes exactly when the byte at `PC` is in the map, faults exactly when
it is not, and is never refused. -/
def Obligations.StepOutcomeByOpcode : Prop :=
  ∀ s : State, s.fault = .none →
    ((∃ t, step s = .next t) ↔ ∃ o, standardOpcodeMap o = s.mem.read s.pc) ∧
    ((∃ f, step s = .fault f) ↔ ∀ o, standardOpcodeMap o ≠ s.mem.read s.pc) ∧
    ∀ r, step s ≠ .refused r

/-- R109 (the spec's decision D6, log 6): while the latch is set a step and an Execute of any budget change nothing and
report the same fault. -/
def Obligations.FaultIsSticky : Prop :=
  ∀ (s : State) (b : Byte) (n : Int), s.fault = .unimplementedOpcode b →
    step s = .fault (.unimplementedOpcode b s) ∧ execute n s = .faulted s b

/-- R56, R203: every instruction lowers `rem` by its cost, at least 2 and at most 6, opcode fetch included. -/
def Obligations.CostTable : Prop :=
  ∀ (i : Instr) (s t : State), exec i s.opcodeFetched = .next t →
    t.rem = s.rem - (cost i s : Int) ∧ 2 ≤ cost i s ∧ cost i s ≤ 6

/-- R12, R18: a data register changes only in a load of that register, and `Z` and `N` only in a load. -/
def Obligations.OnlyLoadsWriteRegistersAndFlags : Prop :=
  ∀ (i : Instr) (s t : State), exec i s = .next t →
    (∀ r, loadTarget i ≠ some r → t.reg r = s.reg r) ∧ (loadTarget i = none → t.flags = s.flags)

/-- R40: a step writes only the cells of the last column of R40: none for a load or RTS, one for a store, two for JSR. -/
def Obligations.OnlyStoresAndCallsWriteMemory : Prop :=
  ∀ (i : Instr) (s t : State), exec i s.opcodeFetched = .next t →
    (∀ a, a ∉ storedAt i s → t.mem.read a = s.mem.read a) ∧ (storedAt i s = [] → t.mem = s.mem)

/-- R16, R19: no instruction writes `SP`, `C`, `I`, `D`, `B` or `V`: every step from every state keeps them. -/
def Obligations.StepKeepsStorageOnlyState : Prop :=
  ∀ s t : State, step s = .next t →
    t.sp = s.sp ∧ t.flags.c = s.flags.c ∧ t.flags.i = s.flags.i ∧ t.flags.d = s.flags.d ∧ t.flags.b = s.flags.b ∧
    t.flags.v = s.flags.v

/-- R16: along every run the stack word stays where it was: at 0x0100 from Reset on. -/
def Obligations.StackPointerNeverMoves : Prop :=
  (∀ s t : State, Reaches s t → t.sp = s.sp) ∧ State.reset.sp = 0x0100

/-- R18: no instruction reads a flag. Two states that differ in the flags at most step to states that differ in the flags at
most, or fault alike. -/
def Obligations.FlagsNeverInfluenceExecution : Prop :=
  ∀ s s' : State, EqualButFlags s s' →
    (∀ t, step s = .next t → ∃ t', step s' = .next t' ∧ EqualButFlags t t') ∧
    (∀ b t, step s = .fault (.unimplementedOpcode b t) →
      ∃ t', step s' = .fault (.unimplementedOpcode b t') ∧ EqualButFlags t t')

/-- R108: the counter never influences what an instruction does, and an instruction costs the same whatever the counter
holds. -/
def Obligations.CounterNeverInfluencesExecution : Prop :=
  ∀ (s t : State) (r : Int), step s = .next t →
    step { s with rem := r } = .next { t with rem := r - (s.rem - t.rem) }

/-- Log 13: a step keeps the memory's canonical form, from every state that has it; the state a fault leaves has it too. -/
def Obligations.StepKeepsCanonicalMemory : Prop :=
  ∀ s : State, s.wf →
    (∀ t, step s = .next t → t.wf) ∧ (∀ b t, step s = .fault (.unimplementedOpcode b t) → t.wf)

/-- R46: a store is seen by the very next fetch: STA absolute at the address of the following instruction makes the byte
stored the next opcode. -/
def Obligations.StoreSeenByNextFetch : Prop :=
  ∀ s t : State, s.wf → exec (.staAbs (s.pc + 3)) s.opcodeFetched = .next t → t.fetchByte.1 = s.a

/-- `withFetchWord` places a table word where the next step runs it (log 12). -/
def Obligations.PlacedWordRuns : Prop :=
  ∀ (s : State) (nbits w : Nat) (i : Instr), s.wf → decodeTableWord nbits w = some i →
    step (s.withFetchWord nbits w) = exec i (s.withFetchWord nbits w).opcodeFetched

/-! ### Execute (41_dispatch_execute.md) -/

/-- R105: an `Execute(n)` with `n <= 0` returns 0 and mutates no state (`n < 0`: the spec's decision D5, log 4). -/
def Obligations.ExecuteIdle : Prop :=
  ∀ (s : State) (n : Int), s.fault = .none → n ≤ 0 → execute n s = .done s 0

/-- R106: a request that the next instruction alone uses up runs that one instruction fully and returns its cost. (`rem` is
given back its old value: log 5.) -/
def Obligations.ExecuteRunsOneInstruction : Prop :=
  ∀ (s t : State) (n : Int), step s = .next t → 1 ≤ n → n ≤ s.rem - t.rem →
    execute n s = .done { t with rem := s.rem } (s.rem - t.rem)

/-- R100, R104: `Execute(n)` is the loop of R100, for every budget: one instruction of cost `k`, then what an `Execute(n-k)`
does, with `k` added to the cycles it returns. With the idle case and the fault case this determines Execute. -/
def Obligations.ExecuteUnrolls : Prop :=
  ∀ (s t : State) (n : Int), 1 ≤ n → step s = .next t →
    execute n s =
      match execute (n - (s.rem - t.rem)) { t with rem := s.rem } with
      | .done left used => .done left (used + (s.rem - t.rem))
      | .faulted left b => .faulted left b
      | .refused r => .refused r

/-- R107, R173 (the spec's decision D6, log 6): when the next byte is unimplemented, an `Execute(n)` with `n >= 1` returns
the fault and no cycle count, with `FAULT` latched, `PC` past the byte and everything else as it was. -/
def Obligations.ExecuteEndsAtFault : Prop :=
  ∀ (s : State) (n : Int), 1 ≤ n → s.fault = .none → (∀ o : Opcode, standardOpcodeMap o ≠ s.mem.read s.pc) →
    execute n s = .faulted
      { s with pc := s.pc + 1, fault := .unimplementedOpcode (s.mem.read s.pc) } (s.mem.read s.pc)

/-- R103: the budget is advisory, and overshot by one instruction at most: `n <= cyclesUsed <= n + 5`. -/
def Obligations.ExecuteOvershootBound : Prop :=
  ∀ (s t : State) (n used : Int), 1 ≤ n → execute n s = .done t used → n ≤ used ∧ used ≤ n + 5

/-- R111, R112: every Execute ends, in one of two ways: normally, with no fault latched, or with the fault latched in the
state it leaves (the latch: the spec's decision D6, log 6); a run of safe states ends normally. Budgets below 1 run nothing
(D5, log 4). -/
def Obligations.ExecuteEndsInTwoWays : Prop :=
  ∀ (s : State) (n : Int),
    ((∃ t used, execute n s = .done t used ∧ t.fault = .none) ∨
      (∃ t b, execute n s = .faulted t b ∧ t.fault = .unimplementedOpcode b)) ∧
    (s.Safe → (execute n s).endsNormally = true)

/-! ### Reset and the host's transactions (70_reset_and_hazards.md, 00_scope.md) -/

/-- R26, R190, R191: what Reset leaves, from any state: every register and flag, every cell, `FAULT`; `rem` is not touched
(R22). (`SP`: D4, log 3; clearing `FAULT`: D6, log 6; the argument's range: D11, log 18; the 0 in `State.reset.rem`: log 5.)
Under other parameters only `PC` of `Reset()` and `SP` differ: they are `RESET_PC` and `SP_RESET` (R5). -/
def Obligations.ResetLeaves : Prop :=
  (∀ (s : State) (addr : Addr),
    s.resetDefault = s.resetAt 0xFFFC ∧
    (s.resetAt addr).pc = addr ∧ (s.resetAt addr).sp = 0x0100 ∧ (∀ r, (s.resetAt addr).reg r = 0x00) ∧
    (s.resetAt addr).flags = ⟨false, false, false, false, false, false, false⟩ ∧
    (∀ a, (s.resetAt addr).mem.read a = 0x00) ∧ (s.resetAt addr).fault = .none ∧ (s.resetAt addr).rem = s.rem ∧
    State.reset = { (s.resetDefault) with rem := 0 }) ∧
  ∀ (cfg : Config) (s : State) (addr : Addr),
    s.resetDefaultWith cfg = s.resetAtWith cfg cfg.resetPc ∧
    s.resetAtWith cfg addr = { (s.resetAt addr) with sp := cfg.spReset } ∧
    State.resetOf cfg = { (s.resetDefaultWith cfg) with rem := 0 }

/-- Log 13: the state right after Reset has the canonical form that every step keeps. -/
def Obligations.ResetHasCanonicalMemory : Prop :=
  State.reset.wf ∧ ∀ (s : State) (addr : Addr), (s.resetAt addr).wf

/-- R27 (the spec's decision D7, log 8): before the first Reset an Execute and every peek are refused, every poke is
accepted and gives the block no state, and Reset gives it the state of R26 (`rem`: log 5). -/
def Obligations.NothingBeforeFirstReset : Prop :=
  (∀ n, Block.beforeReset.transact (.execute n) = .error .beforeFirstReset) ∧
  (∀ a, Block.beforeReset.transact (.peekMem a) = .error .beforeFirstReset) ∧
  (∀ r, Block.beforeReset.transact (.peekReg r) = .error .beforeFirstReset) ∧
  (∀ f, Block.beforeReset.transact (.peekFlag f) = .error .beforeFirstReset) ∧
  (∀ t ∈ [Transaction.peekPc, .peekSp, .peekFault], Block.beforeReset.transact t = .error .beforeFirstReset) ∧
  (∀ a v, Block.beforeReset.transact (.pokeMem a v) = .ok (.beforeReset, .ok)) ∧
  (∀ r v, Block.beforeReset.transact (.pokeReg r v) = .ok (.beforeReset, .ok)) ∧
  (∀ v, Block.beforeReset.transact (.pokePc v) = .ok (.beforeReset, .ok)) ∧
  (∀ v, Block.beforeReset.transact (.pokeSp v) = .ok (.beforeReset, .ok)) ∧
  (∀ f v, Block.beforeReset.transact (.pokeFlag f v) = .ok (.beforeReset, .ok)) ∧
  Block.beforeReset.transact .reset = .ok (.running State.reset, .ok) ∧
  ∀ addr, Block.beforeReset.transact (.resetAt addr) = .ok (.running (State.reset.resetAt addr), .ok)

/-- R25, R42 (the spec's decision D10, log 9): the host may poke every cell, data register and flag, `PC` and `SP`; what it
pokes is what it peeks; a poke changes nothing else, and a peek changes nothing. `FAULT` it may only peek. -/
def Obligations.PokeThenPeek : Prop :=
  ∀ s : State, s.wf →
    (∀ a v, ∃ s', s.transact (.pokeMem a v) = .ok (s', .ok) ∧
      s'.transact (.peekMem a) = .ok (s', .byte v) ∧ (∀ c, c ≠ a → s'.mem.read c = s.mem.read c) ∧
      s' = { s with mem := s'.mem }) ∧
    (∀ r v, ∃ s', s.transact (.pokeReg r v) = .ok (s', .ok) ∧
      s'.transact (.peekReg r) = .ok (s', .byte v) ∧ (∀ q, q ≠ r → s'.reg q = s.reg q) ∧
      s' = { s with a := s'.a, x := s'.x, y := s'.y }) ∧
    (∀ f v, ∃ s', s.transact (.pokeFlag f v) = .ok (s', .ok) ∧
      s'.transact (.peekFlag f) = .ok (s', .flag v) ∧ (∀ g, g ≠ f → s'.flags.get g = s.flags.get g) ∧
      s' = { s with flags := s'.flags }) ∧
    (∀ v, ∃ s', s.transact (.pokePc v) = .ok (s', .ok) ∧ s'.transact .peekPc = .ok (s', .addr v) ∧
      s' = { s with pc := s'.pc }) ∧
    (∀ v, ∃ s', s.transact (.pokeSp v) = .ok (s', .ok) ∧ s'.transact .peekSp = .ok (s', .addr v) ∧
      s' = { s with sp := s'.sp }) ∧
    (∀ a, s.transact (.peekMem a) = .ok (s, .byte (s.mem.read a))) ∧
    (∀ r, s.transact (.peekReg r) = .ok (s, .byte (s.reg r))) ∧
    (∀ f, s.transact (.peekFlag f) = .ok (s, .flag (s.flags.get f))) ∧
    s.transact .peekPc = .ok (s, .addr s.pc) ∧ s.transact .peekSp = .ok (s, .addr s.sp) ∧
    s.transact .peekFault = .ok (s, .fault s.fault)

/-- Log 13: every transaction of the host, a whole Execute among them, keeps the canonical form; Reset establishes it. -/
def Obligations.TransactionsKeepCanonicalMemory : Prop :=
  ∀ (b b' : Block) (t : Transaction) (r : Reply), BlockWf b → b.transact t = .ok (b', r) → BlockWf b'

/-- R22, R25: no transaction shows or changes the cycle counter: the field holds between transactions what it held. -/
def Obligations.CounterInvisibleToHost : Prop :=
  ∀ (s s' : State) (t : Transaction) (reply : Reply) (n : Int),
    s.transact t = .ok (s', reply) →
    s'.rem = s.rem ∧ ({ s with rem := n } : State).transact t = .ok ({ s' with rem := n }, reply)

/-! ### Every setting of the parameters (00_scope.md R5) -/

/-- R5, R88 to R91 (D8, log 7): the four instructions that read a zero-page pointer, for either setting of
`ZP_POINTER_WRAP`: result, frame, length and cost as in their statements at the default, with the pointer of that setting. -/
def Obligations.ConfiguredPointerInstructions : Prop :=
  ∀ (cfg : Config) (s : State) (d8 : Byte),
    (∃ t, execWith cfg (.ldaIndx d8) s.opcodeFetched = .next t ∧
      Loaded .a (s.mem.read (pointerWith cfg.zpPointerWrap s.mem (d8 + s.x))) 2 6 s t) ∧
    (∃ t, execWith cfg (.ldaIndy d8) s.opcodeFetched = .next t ∧
      Loaded .a (s.mem.read (absIndexed (pointerWith cfg.zpPointerWrap s.mem d8) s.y)) 2
        (5 + crossing (pointerWith cfg.zpPointerWrap s.mem d8) s.y) s t) ∧
    (s.wf → ∃ t, execWith cfg (.staIndx d8) s.opcodeFetched = .next t ∧
      Stored .a (pointerWith cfg.zpPointerWrap s.mem (d8 + s.x)) 2 6 s t) ∧
    (s.wf → ∃ t, execWith cfg (.staIndy d8) s.opcodeFetched = .next t ∧
      Stored .a (absIndexed (pointerWith cfg.zpPointerWrap s.mem d8) s.y) 2 6 s t)

/-- R5, R57, R101, R106, R107: the machine under every injective opcode map and either setting of the switch. An instruction
whose bytes under the map stand at `PC` is the one a step runs, and the one an Execute runs that it uses up; a byte outside
the map faults, in a step and in an Execute. (The fault state: D6, log 6; `rem` after an Execute: log 5.) -/
def Obligations.ConfiguredMachineRuns : Prop :=
  ∀ (cfg : Config) (s : State), cfg.opcodeMap.wellFormed = true → s.fault = .none →
    (∀ i : Instr, HoldsUnder cfg.opcodeMap s i →
      stepWith cfg s = execWith cfg i s.opcodeFetched ∧
      ∃ t, execWith cfg i s.opcodeFetched = .next t ∧
        ∀ n : Int, 1 ≤ n → n ≤ s.rem - t.rem → executeWith cfg n s = .done { t with rem := s.rem } (s.rem - t.rem)) ∧
    ((∀ o : Opcode, cfg.opcodeMap o ≠ s.mem.read s.pc) →
      stepWith cfg s = .fault (.unimplementedOpcode (s.mem.read s.pc)
        { s with pc := s.pc + 1, rem := s.rem - 1, fault := .unimplementedOpcode (s.mem.read s.pc) }) ∧
      ∀ n : Int, 1 ≤ n → executeWith cfg n s = .faulted
        { s with pc := s.pc + 1, fault := .unimplementedOpcode (s.mem.read s.pc) } (s.mem.read s.pc))

/-- R5, R91: what a parameter may change. An instruction that reads no zero-page pointer means the same under all; one that
reads a pointer elsewhere than at 0x00FF does too; of the transactions only Execute and Reset depend on them; and the
machine of the other statements is the one at the defaults (log 1, 3, 7, 18). -/
def Obligations.ParametersReachWhatTheyName : Prop :=
  (∀ (cfg : Config) (i : Instr) (s : State),
    i.opcode ∉ [Opcode.ldaIndirectX, .ldaIndirectY, .staIndirectX, .staIndirectY] → execWith cfg i s = exec i s) ∧
  (∀ (cfg : Config) (s : State) (d8 : Byte), d8 + s.x ≠ 0xFF →
    execWith cfg (.ldaIndx d8) s = exec (.ldaIndx d8) s ∧ execWith cfg (.staIndx d8) s = exec (.staIndx d8) s) ∧
  (∀ (cfg : Config) (s : State) (d8 : Byte), d8 ≠ 0xFF →
    execWith cfg (.ldaIndy d8) s = exec (.ldaIndy d8) s ∧ execWith cfg (.staIndy d8) s = exec (.staIndy d8) s) ∧
  (∀ (cfg : Config) (s : State) (t : Transaction), (∀ n, t ≠ .execute n) → t ≠ .reset → (∀ a, t ≠ .resetAt a) →
    s.transactWith cfg t = s.transact t) ∧
  (∀ (cfg : Config) (s : State), s.transactWith cfg .reset = .ok (s.resetDefaultWith cfg, .ok) ∧
    (∀ addr, s.transactWith cfg (.resetAt addr) = .ok (s.resetAtWith cfg addr, .ok)) ∧
    (∀ n left used, executeWith cfg n s = .done left used →
      s.transactWith cfg (.execute n) = .ok (left, .cyclesUsed used)) ∧
    ∀ n left opcode, executeWith cfg n s = .faulted left opcode →
      s.transactWith cfg (.execute n) = .ok (left, .faulted opcode)) ∧
  (∀ cfg : Config, Block.beforeReset.transactWith cfg .reset = .ok (.running (State.resetOf cfg), .ok)) ∧
  (∀ (i : Instr) (s : State), execWith Config.standard i s = exec i s) ∧
  (∀ s : State, stepWith Config.standard s = step s) ∧
  (∀ (n : Int) (s : State), executeWith Config.standard n s = execute n s) ∧
  (∀ (t : Transaction) (b : Block), b.transactWith Config.standard t = b.transact t)
end

