-- ==== Sys2Proof/Laws/Decode.lean ====
section
/-! SUPPORT. What the decoder can answer, said once. -/

namespace Sys2Proof

/-- Every name is in the list of names. -/
theorem Opcode.mem_all (o : Opcode) : o ∈ Opcode.all := by cases o <;> decide

/-- The check on an opcode map is injectivity (R57). -/
theorem OpcodeMap.wellFormed_iff (map : OpcodeMap) : map.wellFormed = true ↔ Function.Injective map := by
  rw [OpcodeMap.wellFormed, decide_eq_true_iff]
  constructor
  · intro h o p hop
    exact List.inj_on_of_nodup_map h o.mem_all p.mem_all hop
  · intro h
    exact List.Nodup.map h (by decide)

theorem standardOpcodeMap_wellFormed : standardOpcodeMap.wellFormed = true := by decide

/-- Looking a byte up answers a name with that byte. -/
theorem opcodeOf_some {map : OpcodeMap} {b : Byte} {o : Opcode} (h : opcodeOf map b = some o) : map o = b := by
  simpa using List.find?_some h

/-- Looking a byte up answers nothing only if no name has it. -/
theorem opcodeOf_none {map : OpcodeMap} {b : Byte} (h : opcodeOf map b = none) (o : Opcode) : map o ≠ b := by
  simpa using List.find?_eq_none.mp h o o.mem_all

/-- In a well-formed map the byte of a name is looked up as that name. -/
theorem opcodeOf_map {map : OpcodeMap} (h : map.wellFormed = true) (o : Opcode) : opcodeOf map (map o) = some o := by
  cases hp : opcodeOf map (map o) with
  | none => exact absurd rfl (opcodeOf_none hp o)
  | some p => rw [(OpcodeMap.wellFormed_iff map).mp h (opcodeOf_some hp)]

/-- The instruction an opcode and operand bytes stand for has that opcode. -/
@[simp] theorem Opcode.instr_opcode (o : Opcode) (b1 b2 : Byte) : (o.instr b1 b2).opcode = o := by cases o <;> rfl

/-- Three bytes always hold a whole instruction, or an opcode outside the map (R52, R58). -/
theorem decodeWith_window (map : OpcodeMap) (b0 b1 b2 : Byte) :
    (opcodeOf map b0 = none ∧ decodeWith map [b0, b1, b2] = .error (.unimplementedOpcode b0)) ∨
    (∃ o rest, opcodeOf map b0 = some o ∧ decodeWith map [b0, b1, b2] = .ok (o.instr b1 b2, rest)) := by
  cases h : opcodeOf map b0 with
  | none => left; simp [decodeWith, h]
  | some o => right; cases o <;> exact ⟨_, _, rfl, by simp only [decodeWith, h]; rfl⟩

end Sys2Proof
end

