-- ==== Sys2Proof/Laws/Memory.lean ====
section
/-! SUPPORT. The laws of memory: read after write, and that every memory operation keeps the canonical form. -/

namespace Sys2Proof.Machine.Memory

/-! ### The list by keys -/

theorem lookup_insert_same (m : Memory) (a : Nat) (v : Byte) (h : m.Pairwise (fun p q => p.1 < q.1)) :
    (m.insert a v).lookup a = v := by
  induction m with
  | nil => by_cases hv : v = unlisted <;> simp [insert, lookup, hv]
  | cons p m ih =>
    obtain ⟨k, w⟩ := p
    rw [List.pairwise_cons] at h
    have below : ∀ n : Memory, (∀ q ∈ n, k < q.1) → ∀ b, b ≤ k → n.lookup b = unlisted := by
      intro n hn b hb
      induction n with
      | nil => rfl
      | cons q n ih' =>
        have := hn q (by simp)
        rw [lookup, if_neg (by omega)]
        exact ih' fun r hr => hn r (by simp [hr])
    rw [insert]
    rcases Nat.lt_trichotomy a k with hak | rfl | hka
    · by_cases hv : v = unlisted
      · rw [if_pos hak, if_pos hv, lookup, if_neg (by omega), below m h.1 a (by omega), hv]
      · rw [if_pos hak, if_neg hv, lookup, if_pos rfl]
    · by_cases hv : v = unlisted
      · rw [if_neg (by omega), if_pos rfl, if_pos hv, below m h.1 a (by omega), hv]
      · rw [if_neg (by omega), if_pos rfl, if_neg hv, lookup, if_pos rfl]
    · rw [if_neg (by omega), if_neg (by omega), lookup, if_neg (by omega)]
      exact ih h.2

theorem lookup_insert_other (m : Memory) (a b : Nat) (v : Byte) (hab : b ≠ a) :
    (m.insert a v).lookup b = m.lookup b := by
  induction m with
  | nil => by_cases hv : v = unlisted <;> simp [insert, lookup, hv, hab]
  | cons p m ih =>
    obtain ⟨k, w⟩ := p
    rw [insert]
    split
    · split <;> simp [lookup, hab]
    · split
      · split <;> simp_all [lookup]
      · simp [lookup, ih]

theorem insert_key_mem {m : Memory} {a : Nat} {v : Byte} {p : Host.Cell} (h : p ∈ m.insert a v) :
    p ∈ m ∨ (p = (a, v) ∧ v ≠ unlisted) := by
  induction m with
  | nil =>
    rw [insert] at h
    split at h <;> simp_all
  | cons q m ih =>
    obtain ⟨k, w⟩ := q
    rw [insert] at h
    split at h
    · split at h <;> simp_all
      tauto
    · split at h
      · split at h <;> simp_all
        tauto
      · rcases List.mem_cons.mp h with rfl | h
        · simp
        · rcases ih h with h | h <;> simp [h]

/-- Inserting keeps the keys strictly rising. -/
theorem insert_pairwise (m : Memory) (a : Nat) (v : Byte) (h : m.Pairwise (fun p q => p.1 < q.1)) :
    (m.insert a v).Pairwise (fun p q => p.1 < q.1) := by
  induction m with
  | nil => rw [insert]; split <;> simp
  | cons q m ih =>
    obtain ⟨k, w⟩ := q
    have hm := List.pairwise_cons.mp h
    rw [insert]
    split
    · split
      · exact h
      · refine List.pairwise_cons.mpr ⟨fun p hp => ?_, h⟩
        rcases List.mem_cons.mp hp with rfl | hp
        · assumption
        · exact Nat.lt_trans ‹a < k› (hm.1 p hp)
    · split
      · split
        · exact hm.2
        · exact List.pairwise_cons.mpr ⟨fun p hp => by have := hm.1 p hp; simp_all, hm.2⟩
      · refine List.pairwise_cons.mpr ⟨fun p hp => ?_, ih hm.2⟩
        rcases insert_key_mem hp with hp | ⟨rfl, -⟩
        · exact hm.1 p hp
        · show k < a; omega

/-! ### The canonical form -/

theorem wf_zeroed : zeroed.wf := by simp [zeroed, wf]

/-- Writing keeps the canonical form. -/
theorem write_wf {m : Memory} (h : m.wf) (a : Addr) (v : Byte) : (m.write a v).wf := by
  refine ⟨insert_pairwise m _ v h.1, fun p hp => ?_⟩
  rcases insert_key_mem hp with hp | ⟨rfl, hv⟩
  · exact h.2 p hp
  · exact ⟨a.isLt, hv⟩

/-- Writing a word keeps the canonical form. -/
theorem writeWord_wf {m : Memory} (h : m.wf) (a v : Addr) : (m.writeWord a v).wf :=
  write_wf (write_wf h _ _) _ _

/-- Placing bytes keeps the canonical form. -/
theorem writeBytes_wf {m : Memory} (h : m.wf) (a : Addr) (vs : List Byte) : (m.writeBytes a vs).wf := by
  induction vs generalizing m a with
  | nil => exact h
  | cons v vs ih => exact ih (write_wf h a v) (a + 1)

/-! ### Reads after writes -/

/-- A cell no entry holds reads as the 0x00 of Reset. -/
@[simp] theorem read_zeroed (a : Addr) : zeroed.read a = 0x00 := rfl

/-- A write to another address does not change a cell (R34). No canonical form is needed. -/
theorem read_write_other (m : Memory) (a b : Addr) (v : Byte) (h : b ≠ a) : (m.write a v).read b = m.read b :=
  lookup_insert_other m _ _ v fun hn => h (BitVec.eq_of_toNat_eq hn)

/-- A read after a write to the same address gives the value written (R34, R41). -/
theorem read_write_same {m : Memory} (h : m.wf) (a : Addr) (v : Byte) : (m.write a v).read a = v :=
  lookup_insert_same m _ v h.1

end Sys2Proof.Machine.Memory
end

