-- ==== Sys2Proof/Laws/State.lean ====
section
/-! SUPPORT. One lemma per field per update of the state, true by rfl: no later proof unfolds a record update. -/

namespace Sys2Proof.Machine.State

variable (s : State)

/-! ### tick -/

@[simp] theorem tick_a (k : Nat) : (s.tick k).a = s.a := rfl
@[simp] theorem tick_x (k : Nat) : (s.tick k).x = s.x := rfl
@[simp] theorem tick_y (k : Nat) : (s.tick k).y = s.y := rfl
@[simp] theorem tick_pc (k : Nat) : (s.tick k).pc = s.pc := rfl
@[simp] theorem tick_sp (k : Nat) : (s.tick k).sp = s.sp := rfl
@[simp] theorem tick_flags (k : Nat) : (s.tick k).flags = s.flags := rfl
@[simp] theorem tick_mem (k : Nat) : (s.tick k).mem = s.mem := rfl
@[simp] theorem tick_fault (k : Nat) : (s.tick k).fault = s.fault := rfl
@[simp] theorem tick_rem (k : Nat) : (s.tick k).rem = s.rem - (k : Int) := rfl
@[simp] theorem tick_reg (k : Nat) (r : DataReg) : (s.tick k).reg r = s.reg r := by cases r <;> rfl

/-! ### passBytes -/

@[simp] theorem passBytes_a (k : Nat) : (s.passBytes k).a = s.a := rfl
@[simp] theorem passBytes_x (k : Nat) : (s.passBytes k).x = s.x := rfl
@[simp] theorem passBytes_y (k : Nat) : (s.passBytes k).y = s.y := rfl
@[simp] theorem passBytes_pc (k : Nat) : (s.passBytes k).pc = s.pc + BitVec.ofNat 16 k := rfl
@[simp] theorem passBytes_sp (k : Nat) : (s.passBytes k).sp = s.sp := rfl
@[simp] theorem passBytes_flags (k : Nat) : (s.passBytes k).flags = s.flags := rfl
@[simp] theorem passBytes_mem (k : Nat) : (s.passBytes k).mem = s.mem := rfl
@[simp] theorem passBytes_fault (k : Nat) : (s.passBytes k).fault = s.fault := rfl
@[simp] theorem passBytes_rem (k : Nat) : (s.passBytes k).rem = s.rem - (k : Int) := rfl
@[simp] theorem passBytes_reg (k : Nat) (r : DataReg) : (s.passBytes k).reg r = s.reg r := by cases r <;> rfl

/-! ### opcodeFetched -/

theorem opcodeFetched_eq : s.opcodeFetched = s.passBytes 1 := rfl
@[simp] theorem opcodeFetched_a : s.opcodeFetched.a = s.a := rfl
@[simp] theorem opcodeFetched_x : s.opcodeFetched.x = s.x := rfl
@[simp] theorem opcodeFetched_y : s.opcodeFetched.y = s.y := rfl
@[simp] theorem opcodeFetched_pc : s.opcodeFetched.pc = s.pc + 1 := rfl
@[simp] theorem opcodeFetched_sp : s.opcodeFetched.sp = s.sp := rfl
@[simp] theorem opcodeFetched_flags : s.opcodeFetched.flags = s.flags := rfl
@[simp] theorem opcodeFetched_mem : s.opcodeFetched.mem = s.mem := rfl
@[simp] theorem opcodeFetched_fault : s.opcodeFetched.fault = s.fault := rfl
@[simp] theorem opcodeFetched_rem : s.opcodeFetched.rem = s.rem - 1 := rfl
@[simp] theorem opcodeFetched_reg (r : DataReg) : s.opcodeFetched.reg r = s.reg r := by cases r <;> rfl

/-! ### setReg -/

@[simp] theorem setReg_pc (r : DataReg) (v : Byte) : (s.setReg r v).pc = s.pc := by cases r <;> rfl
@[simp] theorem setReg_sp (r : DataReg) (v : Byte) : (s.setReg r v).sp = s.sp := by cases r <;> rfl
@[simp] theorem setReg_flags (r : DataReg) (v : Byte) : (s.setReg r v).flags = s.flags := by cases r <;> rfl
@[simp] theorem setReg_mem (r : DataReg) (v : Byte) : (s.setReg r v).mem = s.mem := by cases r <;> rfl
@[simp] theorem setReg_fault (r : DataReg) (v : Byte) : (s.setReg r v).fault = s.fault := by cases r <;> rfl
@[simp] theorem setReg_rem (r : DataReg) (v : Byte) : (s.setReg r v).rem = s.rem := by cases r <;> rfl
@[simp] theorem setReg_reg_same (r : DataReg) (v : Byte) : (s.setReg r v).reg r = v := by cases r <;> rfl
theorem setReg_reg_other (r q : DataReg) (v : Byte) (h : q ≠ r) : (s.setReg r v).reg q = s.reg q := by
  cases r <;> cases q <;> first | rfl | exact absurd rfl h

/-! ### setZN -/

@[simp] theorem setZN_pc (v : Byte) : (s.setZN v).pc = s.pc := rfl
@[simp] theorem setZN_sp (v : Byte) : (s.setZN v).sp = s.sp := rfl
@[simp] theorem setZN_flags (v : Byte) : (s.setZN v).flags = s.flags.setZN v := rfl
@[simp] theorem setZN_mem (v : Byte) : (s.setZN v).mem = s.mem := rfl
@[simp] theorem setZN_fault (v : Byte) : (s.setZN v).fault = s.fault := rfl
@[simp] theorem setZN_rem (v : Byte) : (s.setZN v).rem = s.rem := rfl
@[simp] theorem setZN_reg (v : Byte) (r : DataReg) : (s.setZN v).reg r = s.reg r := by cases r <;> rfl

/-! ### writeByte -/

@[simp] theorem writeByte_pc (a : Addr) (v : Byte) : (s.writeByte a v).pc = s.pc := rfl
@[simp] theorem writeByte_sp (a : Addr) (v : Byte) : (s.writeByte a v).sp = s.sp := rfl
@[simp] theorem writeByte_flags (a : Addr) (v : Byte) : (s.writeByte a v).flags = s.flags := rfl
@[simp] theorem writeByte_mem (a : Addr) (v : Byte) : (s.writeByte a v).mem = s.mem.write a v := rfl
@[simp] theorem writeByte_fault (a : Addr) (v : Byte) : (s.writeByte a v).fault = s.fault := rfl
@[simp] theorem writeByte_rem (a : Addr) (v : Byte) : (s.writeByte a v).rem = s.rem - 1 := rfl
@[simp] theorem writeByte_reg (a : Addr) (v : Byte) (r : DataReg) : (s.writeByte a v).reg r = s.reg r := by
  cases r <;> rfl

/-! ### writeWord -/

@[simp] theorem writeWord_pc (a v : Addr) : (s.writeWord a v).pc = s.pc := rfl
@[simp] theorem writeWord_sp (a v : Addr) : (s.writeWord a v).sp = s.sp := rfl
@[simp] theorem writeWord_flags (a v : Addr) : (s.writeWord a v).flags = s.flags := rfl
@[simp] theorem writeWord_mem (a v : Addr) : (s.writeWord a v).mem = s.mem.writeWord a v := rfl
@[simp] theorem writeWord_fault (a v : Addr) : (s.writeWord a v).fault = s.fault := rfl
@[simp] theorem writeWord_rem (a v : Addr) : (s.writeWord a v).rem = s.rem - 2 := rfl
@[simp] theorem writeWord_reg (a v : Addr) (r : DataReg) : (s.writeWord a v).reg r = s.reg r := by cases r <;> rfl

/-! ### jump -/

@[simp] theorem jump_pc (target : Addr) : (s.jump target).pc = target := rfl
@[simp] theorem jump_sp (target : Addr) : (s.jump target).sp = s.sp := rfl
@[simp] theorem jump_flags (target : Addr) : (s.jump target).flags = s.flags := rfl
@[simp] theorem jump_mem (target : Addr) : (s.jump target).mem = s.mem := rfl
@[simp] theorem jump_fault (target : Addr) : (s.jump target).fault = s.fault := rfl
@[simp] theorem jump_rem (target : Addr) : (s.jump target).rem = s.rem := rfl
@[simp] theorem jump_reg (target : Addr) (r : DataReg) : (s.jump target).reg r = s.reg r := by cases r <;> rfl

/-! ### raiseUnimplementedOpcode -/

@[simp] theorem raise_pc (b : Byte) : (s.raiseUnimplementedOpcode b).pc = s.pc := rfl
@[simp] theorem raise_sp (b : Byte) : (s.raiseUnimplementedOpcode b).sp = s.sp := rfl
@[simp] theorem raise_flags (b : Byte) : (s.raiseUnimplementedOpcode b).flags = s.flags := rfl
@[simp] theorem raise_mem (b : Byte) : (s.raiseUnimplementedOpcode b).mem = s.mem := rfl
@[simp] theorem raise_rem (b : Byte) : (s.raiseUnimplementedOpcode b).rem = s.rem := rfl
@[simp] theorem raise_fault (b : Byte) : (s.raiseUnimplementedOpcode b).fault = .unimplementedOpcode b := rfl
@[simp] theorem raise_reg (b : Byte) (r : DataReg) : (s.raiseUnimplementedOpcode b).reg r = s.reg r := by cases r <;> rfl

/-! ### registers by name -/

@[simp] theorem reg_a : s.reg .a = s.a := rfl
@[simp] theorem reg_x : s.reg .x = s.x := rfl
@[simp] theorem reg_y : s.reg .y = s.y := rfl

/-! ### primitives -/

@[simp] theorem readByte_fst (a : Addr) : (s.readByte a).1 = s.mem.read a := rfl
@[simp] theorem readByte_snd (a : Addr) : (s.readByte a).2 = s.tick 1 := rfl
@[simp] theorem readWord_fst (a : Addr) : (s.readWord a).1 = s.mem.readWord a := rfl
/-- A word read is two cycles and no other change (R73). -/
@[simp] theorem readWord_snd (a : Addr) : (s.readWord a).2 = s.tick 2 := by
  simp only [readWord, readByte_snd, tick, Int.sub_sub]; rfl

/-- Two states with the same fields are the same state. -/
theorem ext_fields {s t : State} (a : t.a = s.a) (x : t.x = s.x) (y : t.y = s.y) (pc : t.pc = s.pc) (sp : t.sp = s.sp)
    (flags : t.flags = s.flags) (mem : t.mem = s.mem) (rem : t.rem = s.rem) (fault : t.fault = s.fault) : t = s := by
  cases s; cases t; simp_all

end Sys2Proof.Machine.State
end

