-- ==== Sys2Proof/Laws/Exec.lean ====
section
/-! SUPPORT. One lemma per shared operation of the instructions, each saying once everything the operation does: what the
resolvers answer, and what a load and a store leave. -/

namespace Sys2Proof.Machine

/-! ### Resolvers: the state they leave differs by `PC` and `rem` only -/

/-- The state after `bytes` operand bytes and `cycles` cycles. -/
def State.after (s : State) (bytes cycles : Nat) : State :=
  { s with pc := s.pc + BitVec.ofNat 16 bytes, rem := s.rem - (cycles : Int) }

@[simp] theorem after_pc (s : State) (k c : Nat) : (s.after k c).pc = s.pc + BitVec.ofNat 16 k := rfl
@[simp] theorem after_sp (s : State) (k c : Nat) : (s.after k c).sp = s.sp := rfl
@[simp] theorem after_flags (s : State) (k c : Nat) : (s.after k c).flags = s.flags := rfl
@[simp] theorem after_mem (s : State) (k c : Nat) : (s.after k c).mem = s.mem := rfl
@[simp] theorem after_rem (s : State) (k c : Nat) : (s.after k c).rem = s.rem - (c : Int) := rfl
@[simp] theorem after_fault (s : State) (k c : Nat) : (s.after k c).fault = s.fault := rfl
@[simp] theorem after_reg (s : State) (k c : Nat) (r : DataReg) : (s.after k c).reg r = s.reg r := by cases r <;> rfl

theorem passBytes_eq (s : State) (k : Nat) : s.passBytes k = s.after k k := rfl

theorem after_tick (s : State) (k c d : Nat) : (s.after k c).tick d = s.after k (c + d) := by
  simp only [State.after, State.tick, Int.sub_sub]; rfl

theorem passBytes_tick (s : State) (k d : Nat) : (s.passBytes k).tick d = s.after k (k + d) := after_tick s k k d

theorem addrZpx_eq (d8 : Byte) (s : State) : addrZpx d8 s = (zext16 (d8 + s.x), s.after 1 2) := by
  simp only [addrZpx, addrZpIndexed, passBytes_tick]; rfl

theorem addrZpy_eq (d8 : Byte) (s : State) : addrZpy d8 s = (zext16 (d8 + s.y), s.after 1 2) := by
  simp only [addrZpy, addrZpIndexed, passBytes_tick]; rfl

theorem addrAbsxRead_eq (base : Addr) (s : State) :
    addrAbsxRead base s = (base + zext16 s.x, s.after 2 (2 + cross base s.x)) := by
  simp only [addrAbsxRead, indexed, Variant.extra, passBytes_tick]

theorem addrAbsyRead_eq (base : Addr) (s : State) :
    addrAbsyRead base s = (base + zext16 s.y, s.after 2 (2 + cross base s.y)) := by
  simp only [addrAbsyRead, indexed, Variant.extra, passBytes_tick]

theorem addrAbsxWrite_eq (base : Addr) (s : State) : addrAbsxWrite base s = (base + zext16 s.x, s.after 2 3) := by
  simp only [addrAbsxWrite, indexed, Variant.extra, passBytes_tick]

theorem addrAbsyWrite_eq (base : Addr) (s : State) : addrAbsyWrite base s = (base + zext16 s.y, s.after 2 3) := by
  simp only [addrAbsyWrite, indexed, Variant.extra, passBytes_tick]

/-- The value of a zero-page pointer for either setting of the switch (R91): where its high byte stands. -/
def pointerAt (wrap : Bool) (m : Memory) (p : Byte) : Addr :=
  word (m.read (if wrap then zext16 (p + 1) else zext16 p + 1)) (m.read (zext16 p))

/-- With the switch off a pointer is a word read at its zero-page location (R73, R91). -/
theorem pointerAt_off (m : Memory) (p : Byte) : pointerAt false m p = m.readWord (zext16 p) := rfl

/-- A pointer read answers the pointer, costs 2 cycles and does nothing else. -/
theorem readPointer_eq (wrap : Bool) (p : Byte) (s : State) :
    readPointer wrap p s = (pointerAt wrap s.mem p, s.tick 2) := by
  cases wrap
  · exact Prod.ext (State.readWord_fst s _) (State.readWord_snd s _)
  · refine Prod.ext rfl ?_
    simp only [readPointer, if_true, State.readByte_snd, State.tick, Int.sub_sub]
    rfl

theorem readPointer_off (p : Byte) (s : State) :
    readPointer false p s = (s.mem.readWord (zext16 p), s.tick 2) := readPointer_eq false p s

theorem addrIndxWith_eq (wrap : Bool) (d8 : Byte) (s : State) :
    addrIndxWith wrap d8 s = (pointerAt wrap s.mem (d8 + s.x), s.after 1 4) := by
  rw [addrIndxWith, readPointer_eq, passBytes_tick, after_tick]; rfl

theorem addrIndyWith_eq (wrap : Bool) (variant : Variant) (d8 : Byte) (s : State) :
    addrIndyWith wrap variant d8 s = (pointerAt wrap s.mem d8 + zext16 s.y,
      s.after 1 (3 + variant.extra (pointerAt wrap s.mem d8) s.y)) := by
  rw [addrIndyWith, readPointer_eq]
  simp only [indexed, passBytes_tick, after_tick, State.passBytes_mem]
  rfl

theorem addrIndx_eq (d8 : Byte) (s : State) :
    addrIndx d8 s = (s.mem.readWord (zext16 (d8 + s.x)), s.after 1 4) := addrIndxWith_eq false d8 s

theorem addrIndyRead_eq (d8 : Byte) (s : State) :
    addrIndyRead d8 s = (s.mem.readWord (zext16 d8) + zext16 s.y,
      s.after 1 (3 + cross (s.mem.readWord (zext16 d8)) s.y)) := addrIndyWith_eq false .read d8 s

theorem addrIndyWrite_eq (d8 : Byte) (s : State) :
    addrIndyWrite d8 s = (s.mem.readWord (zext16 d8) + zext16 s.y, s.after 1 4) := addrIndyWith_eq false .write d8 s

/-! ### Loads, stores -/

/-- `Load(r, v)` as an update of named fields (R120). -/
theorem load_reg_same (r : DataReg) (v : Byte) (s : State) : (load r v s).reg r = v := by simp [load]

theorem load_reg_other (r q : DataReg) (v : Byte) (s : State) (h : q ≠ r) : (load r v s).reg q = s.reg q := by
  simp [load, State.setReg_reg_other _ r q v h]

@[simp] theorem load_flags (r : DataReg) (v : Byte) (s : State) : (load r v s).flags = s.flags.setZN v := by simp [load]
@[simp] theorem load_mem (r : DataReg) (v : Byte) (s : State) : (load r v s).mem = s.mem := by simp [load]
@[simp] theorem load_pc (r : DataReg) (v : Byte) (s : State) : (load r v s).pc = s.pc := by simp [load]
@[simp] theorem load_sp (r : DataReg) (v : Byte) (s : State) : (load r v s).sp = s.sp := by simp [load]
@[simp] theorem load_rem (r : DataReg) (v : Byte) (s : State) : (load r v s).rem = s.rem := by simp [load]
@[simp] theorem load_fault (r : DataReg) (v : Byte) (s : State) : (load r v s).fault = s.fault := by simp [load]

/-- A load from memory: the byte at the effective address, one more cycle (R120, R72). -/
theorem loadFrom_eq (r : DataReg) (ea : Addr) (s : State) :
    loadFrom r (ea, s) = .next (load r (s.mem.read ea) (s.tick 1)) := rfl

/-- A store: the register at the effective address, one more cycle (R140, R74). -/
theorem storeTo_eq (r : DataReg) (ea : Addr) (s : State) : storeTo r (ea, s) = .next (s.writeByte ea (s.reg r)) := rfl

/-- The meanings that read a pointer, at the default parameters. -/
theorem execLdaIndx_eq (d8 : Byte) (s : State) : execLdaIndx d8 s = loadFrom .a (addrIndx d8 s) := rfl
theorem execLdaIndy_eq (d8 : Byte) (s : State) : execLdaIndy d8 s = loadFrom .a (addrIndyRead d8 s) := rfl
theorem execStaIndx_eq (d8 : Byte) (s : State) : execStaIndx d8 s = storeTo .a (addrIndx d8 s) := rfl
theorem execStaIndy_eq (d8 : Byte) (s : State) : execStaIndy d8 s = storeTo .a (addrIndyWrite d8 s) := rfl

/-- JSR as one update (R160). -/
theorem execJsr_eq (target : Addr) (s : State) :
    execJsr target s = .next { s with mem := s.mem.writeWord s.sp (s.pc + 1), pc := target, rem := s.rem - 5 } := by
  have hpc : s.pc + BitVec.ofNat 16 2 - 1 = s.pc + 1 := by
    rw [show BitVec.ofNat 16 2 = 1 + 1 from rfl, ← BitVec.add_assoc, BitVec.add_sub_cancel]
  simp only [execJsr, State.passBytes, State.writeWord, State.jump, State.tick, hpc, Int.sub_sub]
  rfl

/-- RTS as one update (R161). -/
theorem execRts_eq (s : State) :
    execRts s = .next { s with pc := s.mem.readWord s.sp + 1, rem := s.rem - 5 } := by
  simp only [execRts, State.readWord_snd, State.readWord_fst, State.jump, State.tick, Int.sub_sub]
  rfl

/-! ### Everything an instruction can do -/

/-- The four shapes of an instruction's effect, from any state and under any parameters: a load of some value into some
register, a store of some register at some address, the call, the return; with how far the operand moves `PC` and the
bounds on the cycles. -/
theorem execWith_cases (cfg : Config) (i : Instr) (s : State) :
    (∃ r v c, execWith cfg i s = .next (load r v (s.after i.operandBytes.length c)) ∧ 1 ≤ c ∧ c ≤ 5) ∨
    (∃ r ea c, execWith cfg i s = .next ((s.after i.operandBytes.length c).writeByte ea (s.reg r)) ∧ 1 ≤ c ∧ c ≤ 4) ∨
    (∃ target, i = .jsr target ∧
      execWith cfg i s = .next { s with mem := s.mem.writeWord s.sp (s.pc + 1), pc := target, rem := s.rem - 5 }) ∨
    (i = .rts ∧ execWith cfg i s = .next { s with pc := s.mem.readWord s.sp + 1, rem := s.rem - 5 }) := by
  have hcross : ∀ base idx, cross base idx ≤ 1 := fun base idx => by unfold cross; split <;> omega
  have hload : ∀ r ea k c, 1 ≤ c → c ≤ 4 → ∃ r' v c',
      loadFrom r (ea, s.after k c) = .next (load r' v (s.after k c')) ∧ 1 ≤ c' ∧ c' ≤ 5 := fun r ea k c h1 h2 =>
    ⟨r, s.mem.read ea, c + 1, by rw [loadFrom_eq, after_tick, after_mem], by omega, by omega⟩
  have hstore : ∀ r ea k c, 1 ≤ c → c ≤ 4 → ∃ r' ea' c',
      storeTo r (ea, s.after k c) = .next ((s.after k c').writeByte ea' (s.reg r')) ∧ 1 ≤ c' ∧ c' ≤ 4 :=
    fun r ea k c h1 h2 => ⟨r, ea, c, by rw [storeTo_eq, after_reg], h1, h2⟩
  cases i with
  | ldaImm d8 => exact .inl ⟨.a, d8, 1, rfl, by omega, by omega⟩
  | ldxImm d8 => exact .inl ⟨.x, d8, 1, rfl, by omega, by omega⟩
  | ldyImm d8 => exact .inl ⟨.y, d8, 1, rfl, by omega, by omega⟩
  | ldaZp d8 | ldxZp d8 | ldyZp d8 => exact .inl (hload _ (zext16 d8) 1 1 (by omega) (by omega))
  | ldaZpx d8 => left; rw [execWith, exec, execLdaZpx, addrZpx_eq]; exact hload _ _ 1 2 (by omega) (by omega)
  | ldxZpy d8 => left; rw [execWith, exec, execLdxZpy, addrZpy_eq]; exact hload _ _ 1 2 (by omega) (by omega)
  | ldyZpx d8 => left; rw [execWith, exec, execLdyZpx, addrZpx_eq]; exact hload _ _ 1 2 (by omega) (by omega)
  | ldaAbs ea | ldxAbs ea | ldyAbs ea => exact .inl (hload _ ea 2 2 (by omega) (by omega))
  | ldaAbsx base =>
    left; rw [execWith, exec, execLdaAbsx, addrAbsxRead_eq]; exact hload _ _ 2 _ (by omega) (by have := hcross base s.x; omega)
  | ldyAbsx base =>
    left; rw [execWith, exec, execLdyAbsx, addrAbsxRead_eq]; exact hload _ _ 2 _ (by omega) (by have := hcross base s.x; omega)
  | ldaAbsy base =>
    left; rw [execWith, exec, execLdaAbsy, addrAbsyRead_eq]; exact hload _ _ 2 _ (by omega) (by have := hcross base s.y; omega)
  | ldxAbsy base =>
    left; rw [execWith, exec, execLdxAbsy, addrAbsyRead_eq]; exact hload _ _ 2 _ (by omega) (by have := hcross base s.y; omega)
  | ldaIndx d8 => left; rw [execWith, execLdaIndxWith, addrIndxWith_eq]; exact hload _ _ 1 4 (by omega) (by omega)
  | ldaIndy d8 =>
    left; rw [execWith, execLdaIndyWith, addrIndyWith_eq]
    exact hload _ _ 1 _ (by omega) (by
      have := hcross (pointerAt cfg.zpPointerWrap s.mem d8) s.y; simp only [Variant.extra]; omega)
  | staZp d8 | stxZp d8 | styZp d8 => exact .inr (.inl (hstore _ (zext16 d8) 1 1 (by omega) (by omega)))
  | staZpx d8 => right; left; rw [execWith, exec, execStaZpx, addrZpx_eq]; exact hstore _ _ 1 2 (by omega) (by omega)
  | styZpx d8 => right; left; rw [execWith, exec, execStyZpx, addrZpx_eq]; exact hstore _ _ 1 2 (by omega) (by omega)
  | staAbs ea | stxAbs ea | styAbs ea => exact .inr (.inl (hstore _ ea 2 2 (by omega) (by omega)))
  | staAbsx base => right; left; rw [execWith, exec, execStaAbsx, addrAbsxWrite_eq]; exact hstore _ _ 2 3 (by omega) (by omega)
  | staAbsy base => right; left; rw [execWith, exec, execStaAbsy, addrAbsyWrite_eq]; exact hstore _ _ 2 3 (by omega) (by omega)
  | staIndx d8 => right; left; rw [execWith, execStaIndxWith, addrIndxWith_eq]; exact hstore _ _ 1 4 (by omega) (by omega)
  | staIndy d8 => right; left; rw [execWith, execStaIndyWith, addrIndyWith_eq]; exact hstore _ _ 1 4 (by omega) (by omega)
  | jsr target => exact .inr (.inr (.inl ⟨target, rfl, execJsr_eq target s⟩))
  | rts => exact .inr (.inr (.inr ⟨rfl, execRts_eq s⟩))

/-- The default parameters give the instructions of this machine. -/
@[simp] theorem execWith_standard (i : Instr) (s : State) : execWith Config.standard i s = exec i s := by cases i <;> rfl

/-- `execWith_cases` for this machine. -/
theorem exec_cases (i : Instr) (s : State) :
    (∃ r v c, exec i s = .next (load r v (s.after i.operandBytes.length c)) ∧ 1 ≤ c ∧ c ≤ 5) ∨
    (∃ r ea c, exec i s = .next ((s.after i.operandBytes.length c).writeByte ea (s.reg r)) ∧ 1 ≤ c ∧ c ≤ 4) ∨
    (∃ target, i = .jsr target ∧
      exec i s = .next { s with mem := s.mem.writeWord s.sp (s.pc + 1), pc := target, rem := s.rem - 5 }) ∨
    (i = .rts ∧ exec i s = .next { s with pc := s.mem.readWord s.sp + 1, rem := s.rem - 5 }) := by
  simpa only [execWith_standard] using execWith_cases Config.standard i s

/-! ### The flag updater -/

@[simp] theorem setZN_z (f : Flags) (v : Byte) : (f.setZN v).z = (v == 0x00) := rfl
@[simp] theorem setZN_n (f : Flags) (v : Byte) : (f.setZN v).n = v.getLsbD 7 := rfl
@[simp] theorem setZN_c (f : Flags) (v : Byte) : (f.setZN v).c = f.c := rfl
@[simp] theorem setZN_i (f : Flags) (v : Byte) : (f.setZN v).i = f.i := rfl
@[simp] theorem setZN_d (f : Flags) (v : Byte) : (f.setZN v).d = f.d := rfl
@[simp] theorem setZN_b (f : Flags) (v : Byte) : (f.setZN v).b = f.b := rfl
@[simp] theorem setZN_v (f : Flags) (v : Byte) : (f.setZN v).v = f.v := rfl

/-- Bit 7 of a byte is set exactly from 0x80 on. -/
theorem getLsbD_seven (v : Byte) : v.getLsbD 7 = decide (0x80 ≤ v.toNat) := by
  rw [show v.getLsbD 7 = v.msb from rfl, BitVec.msb_eq_decide]

end Sys2Proof.Machine
end

