-- ==== Sys2Proof/Laws/PerInstr.lean ====
section
/-! SUPPORT. Statements about every instruction as syntax, one lemma per constructor. -/

namespace Sys2Proof.Laws.OperandsRoundTrip

/-- The opcode and the operand bytes of an instruction determine it: taking the operands back from its bytes, whatever
follows them, gives the instruction and what follows (30_encoding.md R51, R53). -/
def Statement (i : Instr) : Prop := ∀ rest, decodeOperands i.opcode (i.operandBytes ++ rest) = .ok (i, rest)

/-- A two-byte operand is taken back whole. -/
theorem word_operand (o : Opcode) (f : Addr → Instr) (v : Addr) (hf : o.mode.format = .f3)
    (hi : ∀ b1 b2, o.instr b1 b2 = f (word b2 b1)) (rest : List Byte) :
    decodeOperands o ([loByte v, hiByte v] ++ rest) = .ok (f v, rest) := by
  simp [decodeOperands, hf, hi]

theorem ldaImm (d8 : Byte) : Statement (.ldaImm d8) := fun _ => rfl
theorem ldaZp (d8 : Byte) : Statement (.ldaZp d8) := fun _ => rfl
theorem ldaZpx (d8 : Byte) : Statement (.ldaZpx d8) := fun _ => rfl
theorem ldaAbs (v : Addr) : Statement (.ldaAbs v) := word_operand _ .ldaAbs v rfl fun _ _ => rfl
theorem ldaAbsx (v : Addr) : Statement (.ldaAbsx v) := word_operand _ .ldaAbsx v rfl fun _ _ => rfl
theorem ldaAbsy (v : Addr) : Statement (.ldaAbsy v) := word_operand _ .ldaAbsy v rfl fun _ _ => rfl
theorem ldaIndx (d8 : Byte) : Statement (.ldaIndx d8) := fun _ => rfl
theorem ldaIndy (d8 : Byte) : Statement (.ldaIndy d8) := fun _ => rfl
theorem ldxImm (d8 : Byte) : Statement (.ldxImm d8) := fun _ => rfl
theorem ldxZp (d8 : Byte) : Statement (.ldxZp d8) := fun _ => rfl
theorem ldxZpy (d8 : Byte) : Statement (.ldxZpy d8) := fun _ => rfl
theorem ldxAbs (v : Addr) : Statement (.ldxAbs v) := word_operand _ .ldxAbs v rfl fun _ _ => rfl
theorem ldxAbsy (v : Addr) : Statement (.ldxAbsy v) := word_operand _ .ldxAbsy v rfl fun _ _ => rfl
theorem ldyImm (d8 : Byte) : Statement (.ldyImm d8) := fun _ => rfl
theorem ldyZp (d8 : Byte) : Statement (.ldyZp d8) := fun _ => rfl
theorem ldyZpx (d8 : Byte) : Statement (.ldyZpx d8) := fun _ => rfl
theorem ldyAbs (v : Addr) : Statement (.ldyAbs v) := word_operand _ .ldyAbs v rfl fun _ _ => rfl
theorem ldyAbsx (v : Addr) : Statement (.ldyAbsx v) := word_operand _ .ldyAbsx v rfl fun _ _ => rfl
theorem staZp (d8 : Byte) : Statement (.staZp d8) := fun _ => rfl
theorem staZpx (d8 : Byte) : Statement (.staZpx d8) := fun _ => rfl
theorem staAbs (v : Addr) : Statement (.staAbs v) := word_operand _ .staAbs v rfl fun _ _ => rfl
theorem staAbsx (v : Addr) : Statement (.staAbsx v) := word_operand _ .staAbsx v rfl fun _ _ => rfl
theorem staAbsy (v : Addr) : Statement (.staAbsy v) := word_operand _ .staAbsy v rfl fun _ _ => rfl
theorem staIndx (d8 : Byte) : Statement (.staIndx d8) := fun _ => rfl
theorem staIndy (d8 : Byte) : Statement (.staIndy d8) := fun _ => rfl
theorem stxZp (d8 : Byte) : Statement (.stxZp d8) := fun _ => rfl
theorem stxAbs (v : Addr) : Statement (.stxAbs v) := word_operand _ .stxAbs v rfl fun _ _ => rfl
theorem styZp (d8 : Byte) : Statement (.styZp d8) := fun _ => rfl
theorem styZpx (d8 : Byte) : Statement (.styZpx d8) := fun _ => rfl
theorem styAbs (v : Addr) : Statement (.styAbs v) := word_operand _ .styAbs v rfl fun _ _ => rfl
theorem jsr (v : Addr) : Statement (.jsr v) := word_operand _ .jsr v rfl fun _ _ => rfl
theorem rts : Statement .rts := fun _ => rfl

end Sys2Proof.Laws.OperandsRoundTrip
end

