-- ==== Sys2Proof/Laws/Step.lean ====
section
/-! SUPPORT. What a step can do, said once: every later proof about steps starts from `step_cases`. -/

namespace Sys2Proof.Machine

/-- One instruction, under any parameters, from a state with no fault latched (R101): the handler of the opcode at `PC`,
or the fault with the byte fetched. -/
theorem fetchExecuteWith_cases (cfg : Config) (s : State) :
    (opcodeOf cfg.opcodeMap (s.mem.read s.pc) = none ∧
      fetchExecuteWith cfg s = s.opcodeFetched.unimplemented (s.mem.read s.pc)) ∨
    (∃ o, opcodeOf cfg.opcodeMap (s.mem.read s.pc) = some o ∧ fetchExecuteWith cfg s =
      execWith cfg (o.instr (s.mem.read (s.pc + 1)) (s.mem.read (s.pc + 2))) s.opcodeFetched) := by
  rcases decodeWith_window cfg.opcodeMap (s.mem.read s.pc) (s.mem.read (s.pc + 1)) (s.mem.read (s.pc + 2))
    with ⟨hn, he⟩ | ⟨o, rest, ho, he⟩
  · left; exact ⟨hn, by simp only [fetchExecuteWith, State.fetchWindow, he]; rfl⟩
  · right; exact ⟨o, ho, by simp only [fetchExecuteWith, State.fetchWindow, he]⟩

theorem stepWith_latched (cfg : Config) {s : State} {b : Byte} (h : s.fault = .unimplementedOpcode b) :
    stepWith cfg s = .fault (.unimplementedOpcode b s) := by
  simp only [stepWith, h]

theorem stepWith_unlatched (cfg : Config) {s : State} (h : s.fault = .none) : stepWith cfg s = fetchExecuteWith cfg s := by
  simp only [stepWith, h]

/-- When the bytes at `PC` decode to an instruction, a step is the opcode fetch and then that instruction. -/
theorem stepWith_decoded (cfg : Config) {s : State} {i : Instr} {rest : List Byte} (h : s.fault = .none)
    (hd : decodeWith cfg.opcodeMap s.fetchWindow = .ok (i, rest)) : stepWith cfg s = execWith cfg i s.opcodeFetched := by
  simp only [stepWith_unlatched cfg h, fetchExecuteWith, hd]

/-- Everything a step can do, under any parameters. -/
theorem stepWith_cases (cfg : Config) (s : State) :
    (∃ b, s.fault = .unimplementedOpcode b ∧ stepWith cfg s = .fault (.unimplementedOpcode b s)) ∨
    (s.fault = .none ∧ opcodeOf cfg.opcodeMap (s.mem.read s.pc) = none ∧
      stepWith cfg s = s.opcodeFetched.unimplemented (s.mem.read s.pc)) ∨
    (s.fault = .none ∧ ∃ o, opcodeOf cfg.opcodeMap (s.mem.read s.pc) = some o ∧ stepWith cfg s =
      execWith cfg (o.instr (s.mem.read (s.pc + 1)) (s.mem.read (s.pc + 2))) s.opcodeFetched) := by
  cases hf : s.fault with
  | unimplementedOpcode b => exact .inl ⟨b, rfl, stepWith_latched cfg hf⟩
  | none =>
    rw [stepWith_unlatched cfg hf]
    rcases fetchExecuteWith_cases cfg s with ⟨hn, he⟩ | ⟨o, ho, he⟩
    · exact .inr (.inl ⟨rfl, hn, he⟩)
    · exact .inr (.inr ⟨rfl, o, ho, he⟩)

/-- Everything a step of this machine can do. -/
theorem step_cases (s : State) :
    (∃ b, s.fault = .unimplementedOpcode b ∧ step s = .fault (.unimplementedOpcode b s)) ∨
    (s.fault = .none ∧ opcodeOf Config.standard.opcodeMap (s.mem.read s.pc) = none ∧
      step s = s.opcodeFetched.unimplemented (s.mem.read s.pc)) ∨
    (s.fault = .none ∧ ∃ o, opcodeOf Config.standard.opcodeMap (s.mem.read s.pc) = some o ∧
      step s = exec (o.instr (s.mem.read (s.pc + 1)) (s.mem.read (s.pc + 2))) s.opcodeFetched) := by
  simpa only [step, execWith_standard] using stepWith_cases Config.standard s

/-- Everything one round of the loop of `Execute` does (R100). -/
theorem executeLoopWith_succ (cfg : Config) (fuel : Nat) (s : State) :
    executeLoopWith cfg (fuel + 1) s =
      if s.rem > 0 then
        match stepWith cfg s with
        | .next t => executeLoopWith cfg fuel t
        | .fault f => .fault f
        | .refused r => .refused r
      else .next s := rfl

theorem executeLoop_succ (fuel : Nat) (s : State) :
    executeLoop (fuel + 1) s =
      if s.rem > 0 then
        match step s with
        | .next t => executeLoop fuel t
        | .fault f => .fault f
        | .refused r => .refused r
      else .next s := rfl

/-- An Execute with no fault latched is its loop (R100). -/
theorem executeWith_unlatched (cfg : Config) {s : State} (h : s.fault = .none) (n : Int) :
    executeWith cfg n s = endExecute s n (executeLoopWith cfg n.toNat { s with rem := n }) := by
  unfold executeWith; rw [h]

theorem execute_unlatched {s : State} (h : s.fault = .none) (n : Int) :
    execute n s = endExecute s n (executeLoop n.toNat { s with rem := n }) := executeWith_unlatched Config.standard h n

/-- An Execute with a fault latched reports it and changes nothing (R109). -/
theorem executeWith_latched (cfg : Config) {s : State} {b : Byte} (h : s.fault = .unimplementedOpcode b) (n : Int) :
    executeWith cfg n s = .faulted s b := by
  unfold executeWith; rw [h]

theorem execute_latched {s : State} {b : Byte} (h : s.fault = .unimplementedOpcode b) (n : Int) :
    execute n s = .faulted s b := executeWith_latched Config.standard h n

/-- With no cycles left the loop ends, whatever the fuel. -/
theorem executeLoopWith_idle (cfg : Config) (fuel : Nat) (s : State) (h : s.rem ≤ 0) :
    executeLoopWith cfg fuel s = .next s := by
  cases fuel with
  | zero => rfl
  | succ k => rw [executeLoopWith_succ, if_neg (by omega)]

theorem executeLoop_idle (fuel : Nat) (s : State) (h : s.rem ≤ 0) : executeLoop fuel s = .next s :=
  executeLoopWith_idle Config.standard fuel s h

end Sys2Proof.Machine
end

