-- ==== Sys2Proof/Laws/Transactions.lean ====
section
/-! SUPPORT. One lemma per kind of transaction: what it answers and the state it leaves. -/

namespace Sys2Proof.Machine

/-- An Execute transaction is the Execute of this machine. -/
theorem transact_execute (s : State) (n : Int) : s.transact (.execute n) =
    match execute n s with
    | .done left used => .ok (left, .cyclesUsed used)
    | .faulted left opcode => .ok (left, .faulted opcode)
    | .refused r => .error r := rfl

@[simp] theorem transact_reset (s : State) : s.transact .reset = .ok (s.resetDefault, .ok) := rfl
@[simp] theorem transact_resetAt (s : State) (addr : Addr) : s.transact (.resetAt addr) = .ok (s.resetAt addr, .ok) := rfl
@[simp] theorem transact_peekMem (s : State) (a : Addr) : s.transact (.peekMem a) = .ok (s, .byte (s.mem.read a)) := rfl
@[simp] theorem transact_pokeMem (s : State) (a : Addr) (v : Byte) :
    s.transact (.pokeMem a v) = .ok ({ s with mem := s.mem.write a v }, .ok) := rfl
@[simp] theorem transact_peekReg (s : State) (r : DataReg) : s.transact (.peekReg r) = .ok (s, .byte (s.reg r)) := rfl
@[simp] theorem transact_pokeReg (s : State) (r : DataReg) (v : Byte) :
    s.transact (.pokeReg r v) = .ok (s.setReg r v, .ok) := rfl
@[simp] theorem transact_peekPc (s : State) : s.transact .peekPc = .ok (s, .addr s.pc) := rfl
@[simp] theorem transact_pokePc (s : State) (v : Addr) : s.transact (.pokePc v) = .ok ({ s with pc := v }, .ok) := rfl
@[simp] theorem transact_peekSp (s : State) : s.transact .peekSp = .ok (s, .addr s.sp) := rfl
@[simp] theorem transact_pokeSp (s : State) (v : Addr) : s.transact (.pokeSp v) = .ok ({ s with sp := v }, .ok) := rfl
@[simp] theorem transact_peekFlag (s : State) (f : FlagName) :
    s.transact (.peekFlag f) = .ok (s, .flag (s.flags.get f)) := rfl
@[simp] theorem transact_pokeFlag (s : State) (f : FlagName) (v : Bool) :
    s.transact (.pokeFlag f v) = .ok ({ s with flags := s.flags.set f v }, .ok) := rfl
@[simp] theorem transact_peekFault (s : State) : s.transact .peekFault = .ok (s, .fault s.fault) := rfl

@[simp] theorem set_get_same (g : Flags) (f : FlagName) (v : Bool) : (g.set f v).get f = v := by cases f <;> rfl
theorem set_get_other (g : Flags) (f h : FlagName) (v : Bool) (hh : h ≠ f) : (g.set f v).get h = g.get h := by
  cases f <;> cases h <;> first | rfl | exact absurd rfl hh

/-- A transaction on a block that has been reset is the state's (R7). -/
theorem block_transact_running (s : State) (t : Transaction) :
    (Block.running s).transact t = (s.transact t).map fun r => (.running r.1, r.2) := rfl

end Sys2Proof.Machine
end

