-- ==== Sys2Proof/Tests/Slice0.lean ====
section
/-! SUPPORT. Tests. `test_…`: expected results from the spec, the encodings of 30_encoding.md R56 and the vectors of
95_test_vectors.md named in each docstring. `witness_…`: for each statement with hypotheses, concrete states and operands
that meet all of them together. -/

namespace Sys2Proof.Tests

open Sys2Proof.Machine Sys2Proof.Claims

/-- The vectors' convention: reset, `PC` at `pc`, bytes placed there, then cells poked. -/
def at' (pc : Addr) (bytes : List Byte) (pokes : List (Addr × Byte)) : State :=
  { State.reset with pc := pc, mem := pokes.foldl (fun m p => m.write p.1 p.2) (Memory.zeroed.writeBytes pc bytes) }

/-- The state after one step; on a stop, the reset state, whose `PC` no vector expects. -/
def after (s : State) : State :=
  match step s with
  | .next t => t
  | .fault _ => State.reset
  | .refused _ => State.reset

/-! ### Well-formedness -/

/-- Two instructions under one byte: LDX zeropage,Y under the byte of LDX zeropage. -/
def clashingMap : OpcodeMap
  | .ldxZeropageY => 0xA6
  | o => standardOpcodeMap o

theorem test_wellFormed_refuses_clashing_map : clashingMap.wellFormed = false := by decide
theorem test_wellFormed_accepts_standard_map : standardOpcodeMap.wellFormed = true := by decide
theorem test_wf_refuses_unsorted : ¬ Memory.wf [(5, 0x01), (4, 0x02)] := by decide
theorem test_wf_refuses_repeated : ¬ Memory.wf [(5, 0x01), (5, 0x02)] := by decide
theorem test_wf_refuses_listed_zero : ¬ Memory.wf [(5, 0x00)] := by decide
theorem test_wf_refuses_key_past_the_top : ¬ Memory.wf [(65536, 0x01)] := by decide
theorem test_wf_accepts_top_cell : Memory.wf [(0, 0x01), (65535, 0xFF)] := by decide

/-! ### Decoding: every row of R56, its word written out -/

theorem test_decode_lda :
    decode [0xA9, 0x12] = .ok (.ldaImm 0x12, []) ∧ decode [0xA5, 0x12] = .ok (.ldaZp 0x12, []) ∧
    decode [0xB5, 0x12] = .ok (.ldaZpx 0x12, []) ∧ decode [0xAD, 0x34, 0x12] = .ok (.ldaAbs 0x1234, []) ∧
    decode [0xBD, 0x34, 0x12] = .ok (.ldaAbsx 0x1234, []) ∧ decode [0xB9, 0x34, 0x12] = .ok (.ldaAbsy 0x1234, []) ∧
    decode [0xA1, 0x12] = .ok (.ldaIndx 0x12, []) ∧ decode [0xB1, 0x12] = .ok (.ldaIndy 0x12, []) := by decide

theorem test_decode_ldx :
    decode [0xA2, 0x12] = .ok (.ldxImm 0x12, []) ∧ decode [0xA6, 0x12] = .ok (.ldxZp 0x12, []) ∧
    decode [0xB6, 0x12] = .ok (.ldxZpy 0x12, []) ∧ decode [0xAE, 0x34, 0x12] = .ok (.ldxAbs 0x1234, []) ∧
    decode [0xBE, 0x34, 0x12] = .ok (.ldxAbsy 0x1234, []) := by decide

theorem test_decode_ldy :
    decode [0xA0, 0x12] = .ok (.ldyImm 0x12, []) ∧ decode [0xA4, 0x12] = .ok (.ldyZp 0x12, []) ∧
    decode [0xB4, 0x12] = .ok (.ldyZpx 0x12, []) ∧ decode [0xAC, 0x34, 0x12] = .ok (.ldyAbs 0x1234, []) ∧
    decode [0xBC, 0x34, 0x12] = .ok (.ldyAbsx 0x1234, []) := by decide

theorem test_decode_sta :
    decode [0x85, 0x12] = .ok (.staZp 0x12, []) ∧ decode [0x95, 0x12] = .ok (.staZpx 0x12, []) ∧
    decode [0x8D, 0x34, 0x12] = .ok (.staAbs 0x1234, []) ∧ decode [0x9D, 0x34, 0x12] = .ok (.staAbsx 0x1234, []) ∧
    decode [0x99, 0x34, 0x12] = .ok (.staAbsy 0x1234, []) ∧ decode [0x81, 0x12] = .ok (.staIndx 0x12, []) ∧
    decode [0x91, 0x12] = .ok (.staIndy 0x12, []) := by decide

theorem test_decode_stx_sty :
    decode [0x86, 0x12] = .ok (.stxZp 0x12, []) ∧
    decode [0x8E, 0x34, 0x12] = .ok (.stxAbs 0x1234, []) ∧ decode [0x84, 0x12] = .ok (.styZp 0x12, []) ∧
    decode [0x94, 0x12] = .ok (.styZpx 0x12, []) ∧ decode [0x8C, 0x34, 0x12] = .ok (.styAbs 0x1234, []) := by decide

theorem test_decode_jsr_rts :
    decode [0x20, 0x34, 0x12] = .ok (.jsr 0x1234, []) ∧ decode [0x60, 0x34] = .ok (.rts, [0x34]) := by decide

/-- R58: a neighbour of LDX immediate, the excluded 0x96, and bytes that end too early. -/
theorem test_decode_rejects :
    decode [0xA3, 0x12] = .error (.unimplementedOpcode 0xA3) ∧ decode [0x96, 0x12] = .error (.unimplementedOpcode 0x96) ∧
    decode [0x8D, 0x34] = .error .incomplete ∧ decode [] = .error .incomplete := by decide

/-- A table word: the second byte is bits 15 to 8, the third 23 to 16; bits above `nbits` are zero. -/
theorem test_decodeTableWord :
    decodeTableWord 24 0x4402BD = some (.ldaAbsx 0x4402) ∧ decodeTableWord 8 0x4402BD = some (.ldaAbsx 0x0000) ∧
    decodeTableWord 8 0x60 = some .rts ∧ decodeTableWord 8 0x96 = none := by decide

/-- A placed word is the first instruction after reset, straddling the top of memory (20 00 80 at 0xFFFC). -/
theorem test_withFetchWord : (after (State.reset.withFetchWord 24 0x800020)).pc = 0x8000 := by decide

/-! ### One step per instruction -/

/-- Vector F4. -/
theorem test_ldaImm :
    let t := after ({ (at' 0x1000 [0xA9, 0x80] []) with flags := ⟨true, true, true, true, true, true, false⟩ })
    t.a = 0x80 ∧ t.flags = ⟨true, false, true, true, true, true, true⟩ ∧ t.pc = 0x1002 ∧ t.rem = -2 := by decide

/-- Vector L2. -/
theorem test_ldaZp :
    let t := after (at' 0x1000 [0xA5, 0xFF] [(0x00FF, 0x01), (0x01FF, 0x02)])
    t.a = 0x01 ∧ (t.flags.z, t.flags.n) = (false, false) ∧ t.pc = 0x1002 ∧ t.rem = -3 := by decide

/-- Vector L3. -/
theorem test_ldaZpx :
    let t := after ({ (at' 0x1000 [0xB5, 0x80] [(0x007F, 0x69), (0x017F, 0x11)]) with x := 0xFF })
    t.a = 0x69 ∧ (t.flags.z, t.flags.n) = (false, false) ∧ t.pc = 0x1002 ∧ t.rem = -4 := by decide

/-- Vector L22. -/
theorem test_ldaAbs :
    let t := after ({ (at' 0x1000 [0xAD, 0x80, 0x44] [(0x4480, 0x00)]) with a := 0x55 })
    t.a = 0x00 ∧ (t.flags.z, t.flags.n) = (true, false) ∧ t.pc = 0x1003 ∧ t.rem = -4 := by decide

/-- Vector L8. -/
theorem test_ldaAbsx_exact :
    let t := after ({ (at' 0x1000 [0xBD, 0x00, 0x44] [(0x44FF, 0x21)]) with x := 0xFF })
    t.a = 0x21 ∧ (t.flags.z, t.flags.n) = (false, false) ∧ t.pc = 0x1003 ∧ t.rem = -4 := by decide

/-- Vector L11. -/
theorem test_ldaAbsx_wrap :
    let t := after ({ (at' 0x1000 [0xBD, 0xFF, 0xFF] [(0x0000, 0x24)]) with x := 0x01 })
    t.a = 0x24 ∧ (t.flags.z, t.flags.n) = (false, false) ∧ t.pc = 0x1003 ∧ t.rem = -5 := by decide

/-- Vector L14. -/
theorem test_ldaAbsy :
    let t := after ({ (at' 0x1000 [0xB9, 0x80, 0x44] [(0x4500, 0x00)]) with y := 0x80 })
    t.a = 0x00 ∧ (t.flags.z, t.flags.n) = (true, false) ∧ t.pc = 0x1003 ∧ t.rem = -5 := by decide

/-- Vector L20. -/
theorem test_ldaIndx :
    let t := after ({ (at' 0x1000 [0xA1, 0xFE]
      [(0x0002, 0x34), (0x0003, 0x12), (0x1234, 0x99), (0x0102, 0x77)]) with x := 0x04 })
    t.a = 0x99 ∧ (t.flags.z, t.flags.n) = (false, true) ∧ t.pc = 0x1002 ∧ t.rem = -6 := by decide

/-- Vector L21. -/
theorem test_ldaIndx_pointer_ff :
    let t := after (at' 0x1000 [0xA1, 0xFF]
      [(0x00FF, 0x00), (0x0100, 0x90), (0x0000, 0x20), (0x9000, 0xAA), (0x2000, 0xBB)])
    t.a = 0xAA ∧ (t.flags.z, t.flags.n) = (false, true) ∧ t.pc = 0x1002 ∧ t.rem = -6 := by decide

/-- Vector L24. -/
theorem test_ldaIndy :
    let t := after ({ (at' 0x1000 [0xB1, 0x02] [(0x0002, 0x02), (0x0003, 0x80), (0x8101, 0x37)]) with y := 0xFF })
    t.a = 0x37 ∧ (t.flags.z, t.flags.n) = (false, false) ∧ t.pc = 0x1002 ∧ t.rem = -6 := by decide

/-- Vector L27. -/
theorem test_ldaIndy_pointer_ff :
    let t := after ({ (at' 0x1000 [0xB1, 0xFF]
      [(0x00FF, 0x10), (0x0100, 0x90), (0x0000, 0x20), (0x9011, 0xAA), (0x2011, 0xBB)]) with y := 0x01 })
    t.a = 0xAA ∧ (t.flags.z, t.flags.n) = (false, true) ∧ t.pc = 0x1002 ∧ t.rem = -5 := by decide

/-- Vector F6. -/
theorem test_ldxImm :
    let t := after ({ (at' 0x1000 [0xA2, 0x00] []) with x := 0x12, flags := ⟨true, false, true, true, true, true, true⟩ })
    t.x = 0x00 ∧ t.flags = ⟨true, true, true, true, true, true, false⟩ ∧ t.pc = 0x1002 ∧ t.rem = -2 := by decide

/-- Vector L28. -/
theorem test_ldxZp :
    let t := after (at' 0x1000 [0xA6, 0x10] [(0x0010, 0xFF)])
    t.x = 0xFF ∧ (t.flags.z, t.flags.n) = (false, true) ∧ t.pc = 0x1002 ∧ t.rem = -3 := by decide

/-- Vector L7. -/
theorem test_ldxZpy :
    let t := after ({ (at' 0x1000 [0xB6, 0xF0] [(0x0010, 0x01), (0x0110, 0x99)]) with y := 0x20 })
    t.x = 0x01 ∧ (t.flags.z, t.flags.n) = (false, false) ∧ t.pc = 0x1002 ∧ t.rem = -4 := by decide

/-- Vector L29. -/
theorem test_ldxAbs :
    let t := after (at' 0x1000 [0xAE, 0x00, 0x30] [(0x3000, 0x7F)])
    t.x = 0x7F ∧ (t.flags.z, t.flags.n) = (false, false) ∧ t.pc = 0x1003 ∧ t.rem = -4 := by decide

/-- Vector L15. -/
theorem test_ldxAbsy :
    let t := after ({ (at' 0x1000 [0xBE, 0xFF, 0x30] [(0x3100, 0x80)]) with y := 0x01 })
    t.x = 0x80 ∧ (t.flags.z, t.flags.n) = (false, true) ∧ t.pc = 0x1003 ∧ t.rem = -5 := by decide

/-- Vector F11. -/
theorem test_ldyImm :
    let t := after ({ (at' 0x1000 [0xA0, 0xFF] []) with flags := ⟨true, true, true, true, true, true, false⟩ })
    t.y = 0xFF ∧ t.flags = ⟨true, false, true, true, true, true, true⟩ ∧ t.pc = 0x1002 ∧ t.rem = -2 := by decide

/-- Vector L30. -/
theorem test_ldyZp :
    let t := after ({ (at' 0x1000 [0xA4, 0x10] [(0x0010, 0x00)]) with y := 0x09 })
    t.y = 0x00 ∧ (t.flags.z, t.flags.n) = (true, false) ∧ t.pc = 0x1002 ∧ t.rem = -3 := by decide

/-- Vector L6. -/
theorem test_ldyZpx :
    let t := after ({ (at' 0x1000 [0xB4, 0xFF] [(0x0000, 0x42)]) with x := 0x01 })
    t.y = 0x42 ∧ (t.flags.z, t.flags.n) = (false, false) ∧ t.pc = 0x1002 ∧ t.rem = -4 := by decide

/-- Vector L31. -/
theorem test_ldyAbs :
    let t := after (at' 0x1000 [0xAC, 0x34, 0x12] [(0x1234, 0x90)])
    t.y = 0x90 ∧ (t.flags.z, t.flags.n) = (false, true) ∧ t.pc = 0x1003 ∧ t.rem = -4 := by decide

/-- Vector L17. -/
theorem test_ldyAbsx :
    let t := after ({ (at' 0x1000 [0xBC, 0xFF, 0xFF] [(0x0001, 0x05)]) with x := 0x02 })
    t.y = 0x05 ∧ (t.flags.z, t.flags.n) = (false, false) ∧ t.pc = 0x1003 ∧ t.rem = -5 := by decide

/-- Vector T1. -/
theorem test_staZp :
    let t := after ({ (at' 0x1000 [0x85, 0x10]
      [(0x0010, 0x77)]) with flags := ⟨false, true, false, false, false, false, true⟩ })
    t.mem.read 0x0010 = 0x00 ∧ t.flags = ⟨false, true, false, false, false, false, true⟩ ∧ t.pc = 0x1002 ∧
    t.rem = -3 := by decide

/-- Vector T2. -/
theorem test_staZpx :
    let t := after ({ (at' 0x1000 [0x95, 0x80] []) with a := 0x2F, x := 0xFF })
    t.mem.read 0x007F = 0x2F ∧ t.pc = 0x1002 ∧ t.rem = -4 := by decide

/-- Vector T20. -/
theorem test_staAbs_own_operand :
    let t := after ({ (at' 0x1000 [0x8D, 0x01, 0x10] []) with a := 0xEE })
    t.mem.read 0x1001 = 0xEE ∧ t.pc = 0x1003 ∧ t.rem = -4 := by decide

/-- Vector T4. -/
theorem test_staAbsx :
    let t := after ({ (at' 0x1000 [0x9D, 0x00, 0x30] []) with a := 0x42, x := 0x05 })
    t.mem.read 0x3005 = 0x42 ∧ t.pc = 0x1003 ∧ t.rem = -5 := by decide

/-- Vector T7. -/
theorem test_staAbsx_wrap :
    let t := after ({ (at' 0x1000 [0x9D, 0xFF, 0xFF] []) with a := 0x42, x := 0x02 })
    t.mem.read 0x0001 = 0x42 ∧ t.pc = 0x1003 ∧ t.rem = -5 := by decide

/-- Vector T8. -/
theorem test_staAbsy :
    let t := after ({ (at' 0x1000 [0x99, 0xFF, 0x30] []) with a := 0x42, y := 0x01 })
    t.mem.read 0x3100 = 0x42 ∧ t.pc = 0x1003 ∧ t.rem = -5 := by decide

/-- Vector T11. -/
theorem test_staIndx_own_pointer :
    let t := after ({ (at' 0x1000 [0x81, 0x20] [(0x0020, 0x20), (0x0021, 0x00)]) with a := 0x42 })
    t.mem.read 0x0020 = 0x42 ∧ t.pc = 0x1002 ∧ t.rem = -6 := by decide

/-- Vector T14. -/
theorem test_staIndy :
    let t := after ({ (at' 0x1000 [0x91, 0x20] [(0x0020, 0x01), (0x0021, 0x80)]) with a := 0x42, y := 0xFF })
    t.mem.read 0x8100 = 0x42 ∧ t.pc = 0x1002 ∧ t.rem = -6 := by decide

/-- Vector T15. -/
theorem test_stxZp :
    let t := after ({ (at' 0x1000 [0x86, 0x10] []) with x := 0x99 })
    t.mem.read 0x0010 = 0x99 ∧ t.pc = 0x1002 ∧ t.rem = -3 := by decide

/-- Vector T16. -/
theorem test_stxAbs :
    let t := after ({ (at' 0x1000 [0x8E, 0x00, 0x30] []) with x := 0x99 })
    t.mem.read 0x3000 = 0x99 ∧ t.pc = 0x1003 ∧ t.rem = -4 := by decide

/-- Vector T17. -/
theorem test_styZp :
    let t := after ({ (at' 0x1000 [0x84, 0x10] []) with y := 0x07 })
    t.mem.read 0x0010 = 0x07 ∧ t.pc = 0x1002 ∧ t.rem = -3 := by decide

/-- Vector T18. -/
theorem test_styZpx :
    let t := after ({ (at' 0x1000 [0x94, 0xFF] []) with x := 0x02, y := 0x07 })
    t.mem.read 0x0001 = 0x07 ∧ t.pc = 0x1002 ∧ t.rem = -4 := by decide

/-- Vector T19. -/
theorem test_styAbs :
    let t := after ({ (at' 0x1000 [0x8C, 0x00, 0x30] []) with y := 0x07 })
    t.mem.read 0x3000 = 0x07 ∧ t.pc = 0x1003 ∧ t.rem = -4 := by decide

/-- Vector J3. -/
theorem test_jsr_straddling :
    let t := after (at' 0xFFFE [0x20, 0x34, 0x12] [(0x0100, 0x55), (0x0101, 0x55)])
    t.mem.read 0x0100 = 0x00 ∧ t.mem.read 0x0101 = 0x00 ∧ t.sp = 0x0100 ∧ t.pc = 0x1234 ∧ t.rem = -6 := by decide

/-- Vector J6. -/
theorem test_jsr_sp_wrap :
    let t := after ({ (at' 0x1000 [0x20, 0x00, 0x80] []) with sp := 0xFFFF })
    t.mem.read 0xFFFF = 0x02 ∧ t.mem.read 0x0000 = 0x10 ∧ t.sp = 0xFFFF ∧ t.pc = 0x8000 ∧ t.rem = -6 := by decide

/-- Vector J8. -/
theorem test_rts_wrap :
    let t := after (at' 0x8000 [0x60] [(0x0100, 0xFF), (0x0101, 0xFF)])
    t.sp = 0x0100 ∧ t.pc = 0x0000 ∧ t.rem = -6 := by decide

/-- Vector J10. -/
theorem test_rts_keeps :
    let t := after ({ (at' 0x8000 [0x60]
      [(0x0100, 0x02), (0x0101, 0x10)]) with a := 0x11, x := 0x22, y := 0x33, flags := ⟨true, true, false, false, false, true, true⟩ })
    (t.a, t.x, t.y) = (0x11, 0x22, 0x33) ∧ t.flags = ⟨true, true, false, false, false, true, true⟩ ∧ t.sp = 0x0100 ∧
    t.pc = 0x1003 ∧ t.rem = -6 := by decide

/-! ### The fault, Execute, Reset -/

/-- Vector U3: 0x96 faults with `PC` past it and everything else kept (decision D3, log 2). -/
theorem test_unimplemented :
    step (at' 0x1000 [0x96, 0x12, 0x34] []) = .fault (.unimplementedOpcode 0x96
      { (at' 0x1000 [0x96, 0x12, 0x34] []) with pc := 0x1001, rem := -1, fault := .unimplementedOpcode 0x96 }) := by rfl

/-- The program of vectors E1 to E8. -/
def threeLoads : State := at' 0x1000 [0xA9, 0x01, 0xA2, 0x02, 0xA0, 0x03] []

/-- Vectors E1, E2, E4. -/
theorem test_execute_counts :
    execute 0 threeLoads = .done threeLoads 0 ∧
    execute 1 threeLoads = .done { threeLoads with a := 0x01, pc := 0x1002 } 2 ∧
    execute 3 threeLoads = .done { threeLoads with a := 0x01, x := 0x02, pc := 0x1004 } 4 := by decide

/-- Vector E6. -/
theorem test_execute_faults :
    execute 7 threeLoads = .faulted { threeLoads with
      a := 0x01, x := 0x02, y := 0x03, pc := 0x1007, fault := .unimplementedOpcode 0x00 } 0x00 := by decide

/-- Vectors Z1 to Z3: everything poked, and a latched fault, is gone. -/
theorem test_reset :
    let s := { (at' 0x1000 [0x96] [(0x1234, 0x55)]) with a := 0xFF, sp := 0x01F0, fault := .unimplementedOpcode 0x96 }
    s.resetDefault = State.reset ∧ s.resetAt 0x8000 = { State.reset with pc := 0x8000 } := by decide

/-- Vector Z4: with nothing placed, the first step after Reset faults on the zero byte at 0xFFFC. -/
theorem test_empty_memory_faults : execute 1 State.reset =
    .faulted { State.reset with pc := 0xFFFD, fault := .unimplementedOpcode 0x00 } 0x00 := by decide

/-- A host session: nothing before Reset, then a program is poked in and run (vector F4). -/
theorem test_session :
    Block.beforeReset.transact (.execute 1) = .error .beforeFirstReset ∧
    Block.beforeReset.transact (.resetAt 0x1000) = .ok (.running (at' 0x1000 [] []), .ok) ∧
    (at' 0x1000 [0xA9, 0x80] []).transact (.execute 1) =
      .ok ({ (at' 0x1000 [0xA9, 0x80] []) with
        a := 0x80, pc := 0x1002, flags := ⟨false, false, false, false, false, false, true⟩ }, .cyclesUsed 2) := ⟨rfl, rfl, rfl⟩

/-! ### Witnesses: hypotheses that are met -/

/-- A program of a store and what it needs, in canonical form: STA $8000 at 0x1000, every register set. -/
def storing : State :=
  { (at' 0x1000 [0x8D, 0x00, 0x80] [(0x0020, 0x01), (0x0021, 0x80)]) with a := 0x42, x := 0xFF, y := 0xFF }

theorem storing_wf : storing.wf := by decide

/-- The stores and JSR are stated for every state with a canonical memory. -/
theorem witness_StoreZeroPageResult : storing.wf ∧ (Memory.zeroed).wf := ⟨storing_wf, Memory.wf_zeroed⟩
theorem witness_StoreZeroPageXResult : storing.wf ∧ storing.x = 0xFF := ⟨storing_wf, rfl⟩
theorem witness_StoreAbsoluteResult : storing.wf := storing_wf
theorem witness_StoreAbsoluteIndexedResult : storing.wf ∧ storing.y = 0xFF := ⟨storing_wf, rfl⟩
theorem witness_StoreIndirectResult : storing.wf ∧ wordAt storing.mem (zp 0x20) = 0x8001 := ⟨storing_wf, by decide⟩
theorem witness_JsrResult : ({ storing with sp := 0xFFFF } : State).wf := storing_wf

/-- A JSR $8000 at 0x1000, and an RTS at 0x8000 reached by it. -/
def calling : State := at' 0x1000 [0x20, 0x00, 0x80] [(0x8000, 0x60)]

theorem witness_ReturnResumesAfterCall : ∃ t u v : State, calling.wf ∧
    exec (.jsr 0x8000) calling.opcodeFetched = .next t ∧
    u.sp = t.sp ∧ u.mem.read u.sp = t.mem.read t.sp ∧ u.mem.read (u.sp + 1) = t.mem.read (t.sp + 1) ∧
    exec .rts u.opcodeFetched = .next v ∧ v.pc = 0x1003 :=
  ⟨after calling, after calling, after (after calling), by decide, rfl, rfl, rfl, rfl, rfl, by decide⟩

/-- Vector P4: an outer call at 0x1000, an inner one at 0x2000, an RTS for each. -/
def nested : State := at' 0x1000 [0x20, 0x00, 0x20] [(0x2000, 0x20), (0x2002, 0x30), (0x3000, 0x60), (0x2003, 0x60)]

/-- The two returns start from states that keep the stack word but differ elsewhere: a cell and a register written. -/
theorem witness_NestedCallLosesOuterReturn : ∃ t₁ t₂ u₁ v₁ u₂ v₂ : State, t₁.wf ∧
    exec (.jsr 0x2000) nested.opcodeFetched = .next t₁ ∧ exec (.jsr 0x3000) t₁.opcodeFetched = .next t₂ ∧
    (u₁.sp = t₂.sp ∧ u₁.mem.read u₁.sp = t₂.mem.read t₂.sp ∧ u₁.mem.read (u₁.sp + 1) = t₂.mem.read (t₂.sp + 1)) ∧
    exec .rts u₁.opcodeFetched = .next v₁ ∧
    (u₂.sp = v₁.sp ∧ u₂.mem.read u₂.sp = v₁.mem.read v₁.sp ∧ u₂.mem.read (u₂.sp + 1) = v₁.mem.read (v₁.sp + 1)) ∧
    exec .rts u₂.opcodeFetched = .next v₂ ∧ u₁.mem.read 0x0102 ≠ t₂.mem.read 0x0102 ∧ v₂.pc = 0x2003 :=
  let t₂ := after (after nested)
  let u₁ := { t₂ with mem := t₂.mem.write 0x0102 0x01 }
  let u₂ := { after u₁ with x := 0x07 }
  ⟨after nested, t₂, u₁, after u₁, u₂, _, by decide, rfl, rfl, by decide, rfl, by decide, rfl, by decide, by decide⟩

/-- The boundary values of the three outcomes of `SetZN`: each value falls under one clause. -/
theorem witness_FlagUpdaterOutcomes :
    (0x00 : Byte).toNat = 0 ∧ (0x01 ≤ (0x01 : Byte).toNat ∧ (0x01 : Byte).toNat ≤ 0x7F) ∧
    (0x01 ≤ (0x7F : Byte).toNat ∧ (0x7F : Byte).toNat ≤ 0x7F) ∧ 0x80 ≤ (0x80 : Byte).toNat ∧ 0x80 ≤ (0xFF : Byte).toNat := by
  decide

theorem witness_ZeroPagePointerSwitch : (0xFE : Byte) ≠ 0xFF ∧ (0x00 : Byte) ≠ 0xFF := by decide

theorem witness_DataPrimitives : storing.wf := storing_wf
theorem witness_WordWriteThenRead : storing.mem.wf ∧ storing.mem.writeWord 0xFFFF 0x1234 ≠ storing.mem := by decide

theorem witness_CanonicalMemoryIsExtensional :
    (storing.mem.wf ∧ ∀ a, storing.mem.read a = storing.mem.read a) ∧ (0x0000 : Addr) ≠ 0xFFFF :=
  ⟨⟨storing_wf, fun _ => rfl⟩, by decide⟩

theorem witness_DecodeOfEncode :
    standardOpcodeMap.wellFormed = true ∧ (Instr.jsr 0xFFFF).wellFormed = true ∧ Instr.rts.wellFormed = true :=
  ⟨standardOpcodeMap_wellFormed, rfl, rfl⟩

theorem witness_EncodeOfDecode :
    decodeWith standardOpcodeMap [0x20, 0x34, 0x12, 0x99] = .ok (.jsr 0x1234, [0x99]) ∧
    decodeWith standardOpcodeMap [0x60] = .ok (.rts, []) := by decide

theorem witness_LengthIsEncodedLength : ∃ t : State,
    exec (.staAbs 0x8000) storing.opcodeFetched = .next t ∧ (Instr.staAbs 0x8000).opcode ≠ .jsr ∧
    (Instr.staAbs 0x8000).opcode ≠ .rts := ⟨after storing, rfl, by decide, by decide⟩

theorem witness_StepRunsDecodedInstruction :
    storing.fault = .none ∧ decode storing.fetchWindow = .ok (.staAbs 0x8000, []) ∧
    (Instr.staAbs 0x8000).wellFormed = true := by decide

/-- An instruction that straddles the top of memory: 20 at 0xFFFE, 34 at 0xFFFF, 12 at 0x0000. -/
def straddling : State := at' 0xFFFE [0x20, 0x34, 0x12] []

theorem witness_EncodedInstructionRuns : straddling.fault = .none ∧ HoldsAt straddling (.jsr 0x1234) := by
  refine ⟨rfl, fun k h => ?_⟩
  have h3 : k < 3 := h
  obtain rfl | rfl | rfl : k = 0 ∨ k = 1 ∨ k = 2 := by omega
  all_goals rfl

/-- The excluded byte 0x96 is no instruction's. -/
theorem no_opcode_0x96 : ∀ o : Opcode, standardOpcodeMap o ≠ 0x96 := by intro o; cases o <;> decide

/-- 0x96 at `PC`. -/
def faulting : State := at' 0x1000 [0x96] []

theorem witness_UnimplementedOpcodeFaults :
    faulting.fault = .none ∧ ∀ o : Opcode, standardOpcodeMap o ≠ faulting.mem.read faulting.pc := ⟨rfl, no_opcode_0x96⟩

theorem witness_StepOutcomeByOpcode :
    faulting.fault = .none ∧ (∃ f, step faulting = .fault f) ∧ storing.fault = .none ∧ ∃ t, step storing = .next t :=
  ⟨rfl, ⟨_, rfl⟩, rfl, _, rfl⟩

theorem witness_FaultIsSticky :
    ({ faulting with fault := .unimplementedOpcode 0x96 } : State).fault = .unimplementedOpcode 0x96 := rfl

/-- Indexed loads at the edge of a page crossing: low sums 0xFF and 0x100 (vectors L8, L9). -/
theorem witness_CostTable : ∃ t u : State,
    exec (.ldaAbsx 0x4400) storing.opcodeFetched = .next t ∧ cost (.ldaAbsx 0x4400) storing = 4 ∧
    exec (.ldaAbsx 0x4401) storing.opcodeFetched = .next u ∧ cost (.ldaAbsx 0x4401) storing = 5 :=
  ⟨_, _, rfl, by decide, rfl, by decide⟩

theorem witness_OnlyLoadsWriteRegistersAndFlags : ∃ t u : State,
    exec (.ldxImm 0x80) storing = .next t ∧ loadTarget (.ldxImm 0x80) ≠ some .a ∧
    exec (.stxZp 0x10) storing = .next u ∧ loadTarget (.stxZp 0x10) = none := ⟨_, _, rfl, by decide, rfl, rfl⟩

/-- A store's cell and its neighbours on both sides; JSR's two cells with `SP` at the top; a load's none. -/
theorem witness_OnlyStoresAndCallsWriteMemory : ∃ t u v : State,
    exec (.staAbs 0x8000) storing.opcodeFetched = .next t ∧
    ((0x7FFF : Addr) ∉ storedAt (.staAbs 0x8000) storing ∧ (0x8001 : Addr) ∉ storedAt (.staAbs 0x8000) storing) ∧
    exec (.jsr 0x8000) ({ storing with sp := 0xFFFF } : State).opcodeFetched = .next u ∧
    ((0xFFFE : Addr) ∉ storedAt (.jsr 0x8000) { storing with sp := 0xFFFF } ∧
      (0x0001 : Addr) ∉ storedAt (.jsr 0x8000) { storing with sp := 0xFFFF }) ∧
    exec (.ldaAbs 0x8000) storing.opcodeFetched = .next v ∧ storedAt (.ldaAbs 0x8000) storing = [] :=
  ⟨_, _, _, rfl, by decide, rfl, by decide, rfl, rfl⟩

theorem witness_StepKeepsStorageOnlyState : step storing = .next (after storing) := rfl
theorem witness_StackPointerNeverMoves : Reaches storing (after storing) := .tail (.refl _) rfl

/-- Two states with opposite flags, at a completing instruction and at a faulting byte. -/
theorem witness_FlagsNeverInfluenceExecution :
    (EqualButFlags storing { storing with flags := ⟨true, true, true, true, true, true, true⟩ } ∧
      step storing = .next (after storing)) ∧
    EqualButFlags faulting { faulting with flags := ⟨true, true, true, true, true, true, true⟩ } ∧
    ∃ t, step faulting = .fault (.unimplementedOpcode 0x96 t) := ⟨⟨rfl, rfl⟩, rfl, _, rfl⟩

theorem witness_CounterNeverInfluencesExecution : step storing = .next (after storing) := rfl

theorem witness_StepKeepsCanonicalMemory :
    (storing.wf ∧ step storing = .next (after storing)) ∧
    faulting.wf ∧ ∃ t, step faulting = .fault (.unimplementedOpcode 0x96 t) := ⟨⟨storing_wf, rfl⟩, by decide, _, rfl⟩

theorem witness_StoreSeenByNextFetch : ∃ t : State,
    storing.wf ∧ exec (.staAbs (storing.pc + 3)) storing.opcodeFetched = .next t := ⟨_, storing_wf, rfl⟩

theorem witness_PlacedWordRuns :
    ({ storing with pc := 0xFFFF } : State).wf ∧ decodeTableWord 8 0x20 = some (.jsr 0x0000) ∧
    decodeTableWord 24 0x800020 = some (.jsr 0x8000) := ⟨storing_wf, by decide, by decide⟩

theorem witness_ExecuteIdle : storing.fault = .none ∧ (0 : Int) ≤ 0 ∧ (-3 : Int) ≤ 0 := by decide

/-- STA absolute costs 4: budgets 1 and 4 are the edges. -/
theorem witness_ExecuteRunsOneInstruction :
    step storing = .next (after storing) ∧ (1 : Int) ≤ storing.rem - (after storing).rem ∧
    storing.rem - (after storing).rem = 4 := ⟨rfl, by decide, by decide⟩

theorem witness_ExecuteUnrolls : (1 : Int) ≤ 5 ∧ step storing = .next (after storing) := ⟨by decide, rfl⟩

theorem witness_ExecuteEndsAtFault :
    (1 : Int) ≤ 1 ∧ faulting.fault = .none ∧ ∀ o : Opcode, standardOpcodeMap o ≠ faulting.mem.read faulting.pc :=
  ⟨by decide, rfl, no_opcode_0x96⟩

/-- RTS, of cost 6, with a budget of 1: the largest overshoot. -/
theorem witness_ExecuteOvershootBound : ∃ t : State, execute 1 (at' 0x8000 [0x60] []) = .done t 6 := ⟨_, rfl⟩

/-- An RTS that returns to itself: the stack word is its own address minus 1. -/
def looping : State := at' 0x8000 [0x60] [(0x0100, 0xFF), (0x0101, 0x7F)]

/-- One step of the loop changes the counter only. -/
theorem step_looping (r : Int) : step { looping with rem := r } = .next { looping with rem := r - 6 } := by
  have hs : step { looping with rem := r } = execRts ({ looping with rem := r } : State).opcodeFetched := rfl
  have hm : looping.mem.readWord looping.sp + 1 = looping.pc := by decide
  rw [hs, execRts_eq]
  simp only [State.opcodeFetched_eq, State.passBytes, Int.sub_sub]
  exact congrArg Host.Outcome.next (by rw [hm]; rfl)

theorem witness_ExecuteEndsInTwoWays : looping.Safe := by
  intro t h
  suffices ∃ r, t = { looping with rem := r } by
    obtain ⟨r, rfl⟩ := this
    exact ⟨rfl, .rts, rfl⟩
  induction h with
  | refl => exact ⟨0, rfl⟩
  | tail _ hs ih =>
    obtain ⟨r, rfl⟩ := ih
    rw [step_looping] at hs
    exact ⟨_, (Host.Outcome.next.inj hs).symm⟩

theorem witness_NothingBeforeFirstReset :
    (∃ t ∈ [Transaction.peekPc, .peekSp, .peekFault], t = .peekFault) ∧
    Block.beforeReset.transact (.pokeReg .a 0x01) = .ok (.beforeReset, .ok) ∧
    Block.beforeReset.transact (.resetAt 0x1000) = .ok (.running (State.reset.resetAt 0x1000), .ok) := by decide

theorem witness_PokeThenPeek : storing.wf := storing_wf

/-- R25: the host pokes `PC` and `SP` too, and may peek `FAULT`. -/
theorem test_poke_pc_sp :
    storing.transact (.pokePc 0xFFFF) = .ok ({ storing with pc := 0xFFFF }, .ok) ∧
    storing.transact (.pokeSp 0x01FF) = .ok ({ storing with sp := 0x01FF }, .ok) ∧
    storing.transact .peekFault = .ok (storing, .fault .none) := ⟨rfl, rfl, rfl⟩

theorem witness_TransactionsKeepCanonicalMemory :
    BlockWf (.running storing) ∧ BlockWf .beforeReset ∧
    (∃ b r, (Block.running storing).transact (.execute 1) = .ok (b, r)) ∧
    ∃ b r, Block.beforeReset.transact .reset = .ok (b, r) :=
  ⟨fun _ h => (Block.running.inj h) ▸ storing_wf, fun _ h => (nomatch h), ⟨_, _, rfl⟩, _, _, rfl⟩

theorem witness_CounterInvisibleToHost : ∃ s' reply, storing.transact (.execute 1) = .ok (s', reply) := ⟨_, _, rfl⟩

/-! ### Other parameters (00_scope.md R5) -/

/-- Two bytes exchanged, LDA immediate's and LDX immediate's, the switch on, other reset constants. -/
def otherConfig : Config where
  opcodeMap o := if o = .ldaImmediate then 0xA2 else if o = .ldxImmediate then 0xA9 else standardOpcodeMap o
  resetPc := 0x8000
  spReset := 0x01F0
  zpPointerWrap := true

/-- Vector L21 with `ZP_POINTER_WRAP` true: the high byte from 0x0000, so A is BB. -/
theorem test_ldaIndx_pointer_ff_wrapped :
    ∃ t, stepWith otherConfig (at' 0x1000 [0xA1, 0xFF]
      [(0x00FF, 0x00), (0x0100, 0x90), (0x0000, 0x20), (0x9000, 0xAA), (0x2000, 0xBB)]) = .next t ∧ t.a = 0xBB :=
  ⟨_, rfl, by decide⟩

/-- Vector L27 with `ZP_POINTER_WRAP` true. -/
theorem test_ldaIndy_pointer_ff_wrapped :
    ∃ t, stepWith otherConfig { (at' 0x1000 [0xB1, 0xFF]
      [(0x00FF, 0x10), (0x0100, 0x90), (0x0000, 0x20), (0x9011, 0xAA), (0x2011, 0xBB)]) with y := 0x01 } = .next t ∧
      t.a = 0xBB := ⟨_, rfl, by decide⟩

/-- Under the other map the byte 0xA9 is LDX immediate, in a step and in an Execute. -/
theorem test_other_map :
    executeWith otherConfig 1 threeLoads = .done { threeLoads with x := 0x01, pc := 0x1002 } 2 := by decide

/-- R190 under other reset constants. -/
theorem test_reset_other_constants :
    (State.resetOf otherConfig).pc = 0x8000 ∧ (State.resetOf otherConfig).sp = 0x01F0 := by decide

/-- The stores' premise, with the pointer at 0x00FF in both modes (X is 0xFF, so operand 0x00; operand 0xFF). -/
theorem witness_ConfiguredPointerInstructions :
    storing.wf ∧ (0x00 : Byte) + storing.x = 0xFF ∧
    pointerWith false storing.mem 0xFF = 0x0000 ∧ pointerWith true storing.mem 0x20 = 0x8001 :=
  ⟨storing_wf, by decide, by decide, by decide⟩

/-- Both clauses: an instruction under the exchanged map, with the budgets 1 and 2 its cost of 2 admits, and a byte outside
the map. -/
theorem witness_ConfiguredMachineRuns :
    otherConfig.opcodeMap.wellFormed = true ∧ threeLoads.fault = .none ∧
    HoldsUnder otherConfig.opcodeMap threeLoads (.ldxImm 0x01) ∧
    (∃ t, execWith otherConfig (.ldxImm 0x01) threeLoads.opcodeFetched = .next t ∧ threeLoads.rem - t.rem = 2) ∧
    faulting.fault = .none ∧ ∀ o : Opcode, otherConfig.opcodeMap o ≠ faulting.mem.read faulting.pc := by
  refine ⟨by decide, rfl, fun k h => ?_, ⟨_, rfl, by decide⟩, rfl, fun o => by cases o <;> decide⟩
  have h2 : k < 2 := h
  obtain rfl | rfl : k = 0 ∨ k = 1 := by omega
  all_goals rfl

/-- One witness for each premise: an instruction that reads no pointer, pointer locations next to 0xFF on both sides, a
transaction that is neither Execute nor Reset, and an Execute that ends normally and one that faults. -/
theorem witness_ParametersReachWhatTheyName :
    (Instr.rts.opcode ∉ [Opcode.ldaIndirectX, .ldaIndirectY, .staIndirectX, .staIndirectY]) ∧
    ((0xFF : Byte) + storing.x ≠ 0xFF ∧ (0x01 : Byte) + storing.x ≠ 0xFF) ∧
    ((0xFE : Byte) ≠ 0xFF ∧ (0x00 : Byte) ≠ 0xFF) ∧
    ((∀ n, Transaction.peekFault ≠ .execute n) ∧ Transaction.peekFault ≠ .reset ∧
      ∀ a, Transaction.peekFault ≠ .resetAt a) ∧
    (∃ left used, executeWith otherConfig 1 threeLoads = .done left used) ∧
    ∃ left opcode, executeWith otherConfig 1 faulting = .faulted left opcode :=
  ⟨by decide, by decide, by decide, ⟨fun _ h => (nomatch h), fun h => (nomatch h), fun _ h => (nomatch h)⟩,
    ⟨_, _, rfl⟩, _, _, rfl⟩

end Sys2Proof.Tests
end

section
/-! SUPPORT. Invariants of an `Execute` from invariants of a step, and the canonical form of memory through every
transaction (00_scope.md R6; log 13). -/

namespace Sys2Proof.Machine

/-! ### What an outcome leaves -/

/-- The outcome carries a state, and the state has the property: a refusal, which carries none, is excluded. -/
def OutcomeLeaves (P : State → Prop) : Host.Outcome State Fault Refusal → Prop
  | .next t => P t
  | .fault (.unimplementedOpcode _ t) => P t
  | .refused _ => False

/-- The same of what an `Execute` returns. -/
def ExecuteOutcome.Leaves (P : State → Prop) : ExecuteOutcome → Prop
  | .done t _ => P t
  | .faulted t _ => P t
  | .refused _ => False

section Invariant

variable {cfg : Config} {P : State → Prop} (hstep : ∀ s, P s → OutcomeLeaves P (stepWith cfg s))
include hstep

/-- What every step keeps, the loop of `Execute` keeps. -/
theorem executeLoopWith_leaves (fuel : Nat) {s : State} (hs : P s) : OutcomeLeaves P (executeLoopWith cfg fuel s) := by
  induction fuel generalizing s with
  | zero => exact hs
  | succ fuel ih =>
    rw [executeLoopWith_succ]
    split
    · have hnext := hstep s hs
      cases ht : stepWith cfg s with
      | next t => rw [ht] at hnext; exact ih hnext
      | fault f | refused f => rwa [ht] at hnext
    · exact hs

/-- What every step keeps, and the value of `rem` does not touch, a whole `Execute` keeps. -/
theorem executeWith_leaves (hrem : ∀ (s : State) (m : Int), P s → P { s with rem := m }) (n : Int) {s : State}
    (hs : P s) : (executeWith cfg n s).Leaves P := by
  cases hf : s.fault with
  | unimplementedOpcode b => rw [executeWith_latched cfg hf]; exact hs
  | none =>
    rw [executeWith_unlatched cfg hf]
    have hloop := executeLoopWith_leaves hstep n.toNat (hrem s n hs)
    match executeLoopWith cfg n.toNat { s with rem := n }, hloop with
    | .next t, ht => exact hrem t s.rem ht
    | .fault (.unimplementedOpcode _ t), ht => exact hrem t s.rem ht

end Invariant

/-! ### The canonical form -/

/-- Every instruction completes and keeps the canonical form, under any parameters. -/
theorem execWith_wf (cfg : Config) (i : Instr) {s : State} (h : s.wf) : ∃ t, execWith cfg i s = .next t ∧ t.wf := by
  rcases execWith_cases cfg i s with ⟨r, v, c, he, -⟩ | ⟨r, ea, c, he, -⟩ | ⟨target, -, he⟩ | ⟨-, he⟩
  · exact ⟨_, he, by simpa only [State.wf, load_mem, after_mem] using h⟩
  · exact ⟨_, he, Memory.write_wf h ea _⟩
  · exact ⟨_, he, Memory.writeWord_wf h _ _⟩
  · exact ⟨_, he, h⟩

/-- Every step keeps the canonical form, in the state a fault leaves too. -/
theorem stepWith_wf (cfg : Config) (s : State) (h : s.wf) : OutcomeLeaves State.wf (stepWith cfg s) := by
  rcases stepWith_cases cfg s with ⟨b, -, he⟩ | ⟨-, -, he⟩ | ⟨-, o, -, he⟩
  · rw [he]; exact h
  · rw [he]; exact h
  · obtain ⟨t, ht, hwf⟩ := execWith_wf cfg (o.instr (s.mem.read (s.pc + 1)) (s.mem.read (s.pc + 2)))
      (s := s.opcodeFetched) h
    rw [he, ht]; exact hwf

/-- A whole `Execute` keeps the canonical form. -/
theorem executeWith_wf (cfg : Config) (n : Int) {s : State} (h : s.wf) : (executeWith cfg n s).Leaves State.wf :=
  executeWith_leaves (stepWith_wf cfg) (fun _ _ hs => hs) n h

/-- Reset gives memory its canonical form, whatever it was. -/
theorem resetAtWith_wf (cfg : Config) (s : State) (addr : Addr) : (s.resetAtWith cfg addr).wf := Memory.wf_zeroed

/-- On a block that has been reset every transaction is accepted and keeps the canonical form. -/
theorem transactWith_wf (cfg : Config) (t : Transaction) {s : State} (h : s.wf) :
    ∃ s' reply, s.transactWith cfg t = .ok (s', reply) ∧ s'.wf := by
  cases t with
  | reset => exact ⟨_, _, rfl, resetAtWith_wf cfg s _⟩
  | resetAt addr => exact ⟨_, _, rfl, resetAtWith_wf cfg s addr⟩
  | execute n =>
    have hx := executeWith_wf cfg n h
    rw [State.transactWith]
    match executeWith cfg n s, hx with
    | .done left used, hleft => exact ⟨left, .cyclesUsed used, rfl, hleft⟩
    | .faulted left opcode, hleft => exact ⟨left, .faulted opcode, rfl, hleft⟩
  | pokeMem a v => exact ⟨_, _, rfl, Memory.write_wf h a v⟩
  | pokeReg r v => exact ⟨_, _, rfl, by simpa only [State.wf, State.setReg_mem] using h⟩
  | pokePc _ | pokeSp _ | pokeFlag _ _ => exact ⟨_, _, rfl, h⟩
  | peekMem _ | peekReg _ | peekPc | peekSp | peekFlag _ | peekFault => exact ⟨s, _, rfl, h⟩

end Sys2Proof.Machine

namespace Sys2Proof.Claims

open Sys2Proof.Machine

theorem blockWf_running {s : State} : BlockWf (.running s) ↔ s.wf :=
  ⟨fun h => h s rfl, fun h _ hs => Block.running.inj hs ▸ h⟩

theorem blockWf_beforeReset : BlockWf .beforeReset := fun _ h => nomatch h

/-- Every accepted transaction keeps the canonical form, under any parameters: Reset establishes it, and a poke before the
first Reset leaves the block without a state. -/
theorem block_transactWith_wf (cfg : Config) {b b' : Block} {t : Transaction} {r : Reply} (hb : BlockWf b)
    (h : b.transactWith cfg t = .ok (b', r)) : BlockWf b' := by
  cases b with
  | running s =>
    obtain ⟨s', reply, hs, hwf⟩ := transactWith_wf cfg t (blockWf_running.mp hb)
    rw [Block.transactWith, hs] at h
    cases h
    exact blockWf_running.mpr hwf
  | beforeReset =>
    cases t with
    | reset => cases h; exact blockWf_running.mpr Memory.wf_zeroed
    | resetAt addr => cases h; exact blockWf_running.mpr (resetAtWith_wf cfg _ addr)
    | pokeMem _ _ | pokeReg _ _ | pokePc _ | pokeSp _ | pokeFlag _ _ => cases h; exact blockWf_beforeReset
    | execute _ | peekMem _ | peekReg _ | peekPc | peekSp | peekFlag _ | peekFault => exact nomatch h

/-- Settles O56: the canonical form is an invariant of the step, so of the loop of `Execute`, so of every transaction. -/
theorem transactionsKeepCanonicalMemory : Obligations.TransactionsKeepCanonicalMemory := by
  unfold Obligations.TransactionsKeepCanonicalMemory
  intro b b' t r hb h
  exact block_transactWith_wf Config.standard hb h

end Sys2Proof.Claims
end

section
/-! SUPPORT. The statements' integer forms of addresses and cycles against the model's, and what a load and a store leave
from the state before the opcode fetch (42_loads.md, 43_stores.md). -/

namespace Sys2Proof.Claims

open Sys2Proof.Machine

/-! ### Addresses and cycles in integers -/

/-- A zero-page address is the operand byte with page 0 (R79). -/
theorem zp_eq (d8 : Byte) : zp d8 = zext16 d8 := by
  apply BitVec.eq_of_toNat_eq
  have := d8.isLt
  rw [zp, BitVec.toNat_ofNat, zext16_toNat]; omega

/-- The index addition modulo 2^16 (R84). -/
theorem absIndexed_eq (base : Addr) (idx : Byte) : absIndexed base idx = base + zext16 idx := by
  apply BitVec.eq_of_toNat_eq
  rw [absIndexed, BitVec.toNat_ofNat, BitVec.toNat_add, zext16_toNat]; omega

/-- The page-crossing cycle (R83). -/
theorem crossing_eq (base : Addr) (idx : Byte) : crossing base idx = cross base idx := by
  rw [crossing, cross, loByte_toNat]

/-- Two bytes as a 16-bit value (R8). -/
theorem ofNat_bytes (hi lo : Byte) : BitVec.ofNat 16 (hi.toNat * 256 + lo.toNat) = word hi lo := by
  apply BitVec.eq_of_toNat_eq
  have := hi.isLt
  have := lo.isLt
  rw [BitVec.toNat_ofNat, word_toNat]; omega

/-- Where the high byte of a pointer stands with `ZP_POINTER_WRAP` on (R91). -/
theorem ofNat_succ_mod (p : Byte) : BitVec.ofNat 16 ((p.toNat + 1) % 256) = zext16 (p + 1) := by
  apply BitVec.eq_of_toNat_eq
  rw [BitVec.toNat_ofNat, zext16_toNat, BitVec.toNat_add]
  show (p.toNat + 1) % 256 % 65536 = (p.toNat + 1) % 256
  omega

/-- Where the high byte of a pointer stands with `ZP_POINTER_WRAP` off (R73, R91). -/
theorem ofNat_succ (p : Byte) : BitVec.ofNat 16 (p.toNat + 1) = zext16 p + 1 := by
  rw [← zp_eq, zp, BitVec.ofNat_add]; rfl

/-- The value of a zero-page pointer, for either setting of the switch (R91). -/
theorem pointerWith_eq (wrap : Bool) (m : Memory) (p : Byte) : pointerWith wrap m p = pointerAt wrap m p := by
  rw [pointerWith, pointerAt, ofNat_bytes, ofNat_succ_mod, ofNat_succ, zp_eq]

/-! ### What a load and a store leave -/

/-- `SetZN` in the statements' words (R92). -/
theorem flagsOfValue_setZN (v : Byte) (f : Flags) : FlagsOfValue v f (f.setZN v) := by
  refine ⟨?_, ?_, rfl, rfl, rfl, rfl, rfl⟩
  · rw [setZN_z, beq_iff_eq]
  · rw [setZN_n, getLsbD_seven, decide_eq_true_iff]

/-- The opcode fetch, then `k` operand bytes and `c` cycles, from the state before the fetch (R101). -/
theorem opcodeFetched_after (s : State) (k c : Nat) : s.opcodeFetched.after k c = s.after (k + 1) (c + 1) := by
  have hpc : s.pc + 1 + BitVec.ofNat 16 k = s.pc + BitVec.ofNat 16 (k + 1) := by
    rw [BitVec.add_assoc, BitVec.add_comm 1, BitVec.ofNat_add]; rfl
  have hrem : s.rem - 1 - (c : Int) = s.rem - ((c + 1 : Nat) : Int) := by omega
  simp only [State.after, State.opcodeFetched_pc, State.opcodeFetched_rem, hpc, hrem]
  rfl

/-- A load of a whole instruction's length and cost is the load of the statements (R120, R139). -/
theorem loaded_load (r : DataReg) (v : Byte) (length cost : Nat) (s : State) :
    Loaded r v length cost s (load r v (s.after length cost)) := by
  refine ⟨load_reg_same r v _, fun q hq => ?_, ?_, ?_, ?_, ?_, ?_, fun a => ?_⟩
  · rw [load_reg_other r q v _ hq, after_reg]
  · rw [load_flags, after_flags]; exact flagsOfValue_setZN v s.flags
  · rw [load_pc, after_pc]
  · rw [load_rem, after_rem]
  · rw [load_sp, after_sp]
  · rw [load_fault, after_fault]
  · rw [load_mem, after_mem]

/-- A store on a canonical memory is the store of the statements (R140, R153): the write is the last cycle. -/
theorem stored_writeByte (r : DataReg) (ea : Addr) (length cost : Nat) {s : State} (h : s.wf) :
    Stored r ea length (cost + 1) s ((s.after length cost).writeByte ea (s.reg r)) := by
  refine ⟨Memory.read_write_same h ea _, fun a ha => Memory.read_write_other _ _ _ _ ha, fun q => ?_, rfl, rfl, ?_, rfl,
    rfl⟩
  · rw [State.writeByte_reg, after_reg]
  · rw [State.writeByte_rem, after_rem]; omega

/-- A load from a resolved address, run after the opcode fetch: the byte that stood there before it. -/
theorem loadFrom_loaded (r : DataReg) (ea : Addr) (k c : Nat) (s : State) :
    ∃ t, loadFrom r (ea, s.opcodeFetched.after k c) = .next t ∧ Loaded r (s.mem.read ea) (k + 1) (c + 2) s t := by
  refine ⟨_, loadFrom_eq r ea _, ?_⟩
  rw [after_mem, State.opcodeFetched_mem, after_tick, opcodeFetched_after]
  exact loaded_load r (s.mem.read ea) (k + 1) (c + 2) s

/-- A store to a resolved address, run after the opcode fetch: the register as it was before it. -/
theorem storeTo_stored (r : DataReg) (ea : Addr) (k c : Nat) {s : State} (h : s.wf) :
    ∃ t, storeTo r (ea, s.opcodeFetched.after k c) = .next t ∧ Stored r ea (k + 1) (c + 2) s t := by
  refine ⟨_, storeTo_eq r ea _, ?_⟩
  rw [opcodeFetched_after, after_reg]
  exact stored_writeByte r ea (k + 1) (c + 1) h

end Sys2Proof.Claims
end

section
/-! The instructions that read a zero-page pointer, under any parameters (00_scope.md R5; R88 to R91). -/

namespace Sys2Proof.Claims

open Sys2Proof.Machine

/-- LDA (zp,X) (R88, R127). -/
theorem execWith_ldaIndx (cfg : Config) (d8 : Byte) (s : State) : execWith cfg (.ldaIndx d8) s =
    loadFrom .a (pointerAt cfg.zpPointerWrap s.mem (d8 + s.x), s.after 1 4) := by
  rw [execWith, execLdaIndxWith, addrIndxWith_eq]

/-- LDA (zp),Y (R89, R128). -/
theorem execWith_ldaIndy (cfg : Config) (d8 : Byte) (s : State) : execWith cfg (.ldaIndy d8) s =
    loadFrom .a (pointerAt cfg.zpPointerWrap s.mem d8 + zext16 s.y,
      s.after 1 (3 + cross (pointerAt cfg.zpPointerWrap s.mem d8) s.y)) := by
  rw [execWith, execLdaIndyWith, addrIndyWith_eq, Variant.extra]

/-- STA (zp,X) (R88, R146). -/
theorem execWith_staIndx (cfg : Config) (d8 : Byte) (s : State) : execWith cfg (.staIndx d8) s =
    storeTo .a (pointerAt cfg.zpPointerWrap s.mem (d8 + s.x), s.after 1 4) := by
  rw [execWith, execStaIndxWith, addrIndxWith_eq]

/-- STA (zp),Y (R90, R147). -/
theorem execWith_staIndy (cfg : Config) (d8 : Byte) (s : State) : execWith cfg (.staIndy d8) s =
    storeTo .a (pointerAt cfg.zpPointerWrap s.mem d8 + zext16 s.y, s.after 1 4) := by
  rw [execWith, execStaIndyWith, addrIndyWith_eq, Variant.extra]

/-- Settles O58: each instruction is a load or a store at the address its pointer gives. -/
theorem configuredPointerInstructions : Obligations.ConfiguredPointerInstructions := by
  unfold Obligations.ConfiguredPointerInstructions
  intro cfg s d8
  simp only [pointerWith_eq, absIndexed_eq, crossing_eq, execWith_ldaIndx, execWith_ldaIndy, execWith_staIndx,
    execWith_staIndy, State.opcodeFetched_mem, State.opcodeFetched_x, State.opcodeFetched_y]
  refine ⟨loadFrom_loaded .a _ 1 4 s, ?_, storeTo_stored .a _ 1 4, storeTo_stored .a _ 1 4⟩
  have hcost : 5 + cross (pointerAt cfg.zpPointerWrap s.mem d8) s.y =
      3 + cross (pointerAt cfg.zpPointerWrap s.mem d8) s.y + 2 := by omega
  rw [hcost]
  exact loadFrom_loaded .a _ 1 _ s

/-! ### What the parameters may change (R5, R91) -/

/-- A pointer elsewhere than at 0x00FF has one value for both settings of the switch (R91). -/
theorem pointerAt_irrel {p : Byte} (h : p ≠ 0xFF) (wrap wrap' : Bool) (m : Memory) :
    pointerAt wrap m p = pointerAt wrap' m p := by
  have hsucc : zext16 (p + 1) = zext16 p + 1 := by
    apply BitVec.eq_of_toNat_eq
    have hp : p.toNat ≠ 255 := fun hn => h (BitVec.eq_of_toNat_eq hn)
    have := p.isLt
    rw [BitVec.toNat_add, zext16_toNat, zext16_toNat, BitVec.toNat_add]
    show (p.toNat + 1) % 256 = (p.toNat + 1) % 65536
    omega
  simp only [pointerAt, hsucc, ite_self]

/-- An instruction that reads no zero-page pointer means the same under all parameters (R91). -/
theorem execWith_eq_exec (cfg : Config) {i : Instr} (s : State)
    (h : i.opcode ∉ [Opcode.ldaIndirectX, .ldaIndirectY, .staIndirectX, .staIndirectY]) : execWith cfg i s = exec i s := by
  cases i with
  | ldaIndx d8 | ldaIndy d8 | staIndx d8 | staIndy d8 => exact absurd (by simp [Instr.opcode]) h
  | _ => rfl

/-- A transaction that is neither Execute nor a Reset is the same under all parameters. -/
theorem transactWith_eq_transact (cfg : Config) (s : State) {t : Transaction} (hexec : ∀ n, t ≠ .execute n)
    (hreset : t ≠ .reset) (hresetAt : ∀ a, t ≠ .resetAt a) : s.transactWith cfg t = s.transact t := by
  cases t with
  | execute n => exact absurd rfl (hexec n)
  | reset => exact absurd rfl hreset
  | resetAt a => exact absurd rfl (hresetAt a)
  | _ => rfl

/-- Settles O60: only the pointer's value, the opcode map and the reset constants reach a meaning. -/
theorem parametersReachWhatTheyName : Obligations.ParametersReachWhatTheyName := by
  unfold Obligations.ParametersReachWhatTheyName
  refine ⟨fun cfg i s h => execWith_eq_exec cfg s h, fun cfg s d8 h => ?_, fun cfg s d8 h => ?_,
    fun cfg s t hx hr ha => transactWith_eq_transact cfg s hx hr ha,
    fun cfg s => ⟨rfl, fun _ => rfl, fun n left used h => ?_, fun n left opcode h => ?_⟩,
    fun _ => rfl, execWith_standard, fun _ => rfl, fun _ _ => rfl, fun _ _ => rfl⟩
  · simp only [← execWith_standard, execWith_ldaIndx, execWith_staIndx,
      pointerAt_irrel h cfg.zpPointerWrap Config.standard.zpPointerWrap, and_self]
  · simp only [← execWith_standard, execWith_ldaIndy, execWith_staIndy,
      pointerAt_irrel h cfg.zpPointerWrap Config.standard.zpPointerWrap, and_self]
  · rw [State.transactWith, h]
  · rw [State.transactWith, h]

end Sys2Proof.Claims
end

section
/-! SUPPORT. The decoder on the encoder's bytes, for every instruction and every injective opcode map (30_encoding.md R51,
R53, R57), and on the bytes at `PC`. -/

namespace Sys2Proof

open Sys2Proof.Laws.OperandsRoundTrip in
/-- The operand bytes of every instruction are taken back whole (R51, R53). -/
theorem decodeOperands_operandBytes (i : Instr) (rest : List Byte) :
    decodeOperands i.opcode (i.operandBytes ++ rest) = .ok (i, rest) := by
  suffices h : Statement i from h rest
  cases i with
  | ldaAbs v => exact ldaAbs v
  | ldaAbsx v => exact ldaAbsx v
  | ldaAbsy v => exact ldaAbsy v
  | ldxAbs v => exact ldxAbs v
  | ldxAbsy v => exact ldxAbsy v
  | ldyAbs v => exact ldyAbs v
  | ldyAbsx v => exact ldyAbsx v
  | staAbs v => exact staAbs v
  | staAbsx v => exact staAbsx v
  | staAbsy v => exact staAbsy v
  | stxAbs v => exact stxAbs v
  | styAbs v => exact styAbs v
  | jsr v => exact jsr v
  | rts => exact rts
  | _ d8 => exact fun _ => rfl

/-- The decoder reads back what the encoder wrote, whatever follows (R57). -/
theorem decodeWith_encodeWith {map : OpcodeMap} (h : map.wellFormed = true) (i : Instr) (rest : List Byte) :
    decodeWith map (encodeWith map i ++ rest) = .ok (i, rest) := by
  simp only [encodeWith, List.cons_append, decodeWith, opcodeOf_map h, decodeOperands_operandBytes]

/-- No instruction is longer than the three bytes a step reads (R50). -/
theorem encodeWith_length_le (map : OpcodeMap) (i : Instr) : (encodeWith map i).length ≤ 3 := by
  have hoperands : i.operandBytes.length ≤ 2 := by cases i <;> simp [Instr.operandBytes]
  rw [encodeWith, List.length_cons]; omega

end Sys2Proof

namespace Sys2Proof.Machine

open Sys2Proof.Claims

/-- The bytes a step reads stand at consecutive addresses modulo 2^16 (R31). -/
theorem getElem_fetchWindow (s : State) (k : Nat) (h : k < 3) :
    s.fetchWindow[k]'h = s.mem.read (s.pc + BitVec.ofNat 16 k) := by
  match k with
  | 0 => exact congrArg s.mem.read (BitVec.add_zero s.pc).symm
  | 1 | 2 => rfl

/-- When the bytes of an instruction stand at `PC`, the step decodes that instruction (R101). -/
theorem decodeWith_fetchWindow {map : OpcodeMap} (hm : map.wellFormed = true) {s : State} {i : Instr}
    (h : HoldsUnder map s i) : ∃ rest, decodeWith map s.fetchWindow = .ok (i, rest) := by
  have hlen := encodeWith_length_le map i
  have hprefix : encodeWith map i <+: s.fetchWindow := List.prefix_iff_getElem.mpr
    ⟨hlen, fun k hk => (h k hk).symm.trans (getElem_fetchWindow s k (by omega)).symm⟩
  obtain ⟨rest, hrest⟩ := hprefix
  exact ⟨rest, by rw [← hrest, decodeWith_encodeWith hm]⟩

/-- A byte no name has is not looked up. -/
theorem opcodeOf_eq_none {map : OpcodeMap} {b : Byte} (h : ∀ o, map o ≠ b) : opcodeOf map b = none := by
  cases ho : opcodeOf map b with
  | none => rfl
  | some o => exact absurd (opcodeOf_some ho) (h o)

/-- A byte outside the map faults and leaves the state of R173. -/
theorem stepWith_unimplemented (cfg : Config) {s : State} (hf : s.fault = .none)
    (hb : ∀ o, cfg.opcodeMap o ≠ s.mem.read s.pc) :
    stepWith cfg s = .fault (.unimplementedOpcode (s.mem.read s.pc)
      { s with pc := s.pc + 1, rem := s.rem - 1, fault := .unimplementedOpcode (s.mem.read s.pc) }) := by
  rw [stepWith_unlatched cfg hf]
  rcases fetchExecuteWith_cases cfg s with ⟨-, he⟩ | ⟨o, ho, -⟩
  · exact he
  · exact absurd (opcodeOf_some ho) (hb o)

end Sys2Proof.Machine
end

section
/-! SUPPORT. The counter `rem` never influences what an instruction does (41_dispatch_execute.md R108): every operation
commutes with a change of it. -/

namespace Sys2Proof.Machine

/-- `s` with the counter moved by `d`. -/
def State.addRem (s : State) (d : Int) : State := { s with rem := s.rem + d }

/-- The same of the state an outcome carries. -/
def outcomeAddRem (d : Int) : Host.Outcome State Fault Refusal → Host.Outcome State Fault Refusal
  | .next t => .next (t.addRem d)
  | .fault (.unimplementedOpcode b t) => .fault (.unimplementedOpcode b (t.addRem d))
  | .refused r => .refused r

/-- Any value of the counter is a move from the one it has. -/
theorem addRem_sub (s : State) (m : Int) : s.addRem (m - s.rem) = { s with rem := m } := by
  rw [State.addRem, Int.add_comm, Int.sub_add_cancel]

/-- A resolver answers the same whatever the counter holds, and moves it alike. -/
def ResolverIgnoresRem {α : Type} (f : State → α × State) : Prop :=
  ∀ s d, f (s.addRem d) = ((f s).1, (f s).2.addRem d)

/-- A meaning does the same whatever the counter holds, and moves it alike. -/
def MeaningIgnoresRem (f : State → Host.Outcome State Fault Refusal) : Prop :=
  ∀ s d, f (s.addRem d) = outcomeAddRem d (f s)

/-! ### Operations -/

theorem addRem_after (s : State) (d : Int) (k c : Nat) : (s.addRem d).after k c = (s.after k c).addRem d := by
  simp only [State.addRem, State.after, add_sub_right_comm]

theorem addRem_tick (s : State) (d : Int) (c : Nat) : (s.addRem d).tick c = (s.tick c).addRem d := by
  simp only [State.addRem, State.tick, add_sub_right_comm]

theorem addRem_reg (s : State) (d : Int) (r : DataReg) : (s.addRem d).reg r = s.reg r := by cases r <;> rfl

theorem addRem_load (r : DataReg) (v : Byte) (s : State) (d : Int) : load r v (s.addRem d) = (load r v s).addRem d := by
  cases r <;> rfl

theorem addRem_writeByte (s : State) (d : Int) (a : Addr) (v : Byte) :
    (s.addRem d).writeByte a v = (s.writeByte a v).addRem d :=
  addRem_tick { s with mem := s.mem.write a v } d 1

theorem addRem_opcodeFetched (s : State) (d : Int) : (s.addRem d).opcodeFetched = s.opcodeFetched.addRem d :=
  addRem_after s d 1 1

/-! ### Resolvers -/

/-- A resolver whose answer and cycles do not look at the counter ignores it: it moves `PC` and `rem` only. -/
theorem ResolverIgnoresRem.of_after {α : Type} {f : State → α × State} {answer : State → α} {k : Nat}
    {cycles : State → Nat} (h : ∀ s, f s = (answer s, s.after k (cycles s)))
    (ha : ∀ s d, answer (s.addRem d) = answer s) (hc : ∀ s d, cycles (s.addRem d) = cycles s) :
    ResolverIgnoresRem f := fun s d => by rw [h, h, ha, hc, addRem_after]

theorem operandImm_ignoresRem (d8 : Byte) : ResolverIgnoresRem (operandImm d8) :=
  .of_after (k := 1) (cycles := fun _ => 1) (fun _ => rfl) (fun _ _ => rfl) fun _ _ => rfl

theorem addrZp_ignoresRem (d8 : Byte) : ResolverIgnoresRem (addrZp d8) :=
  .of_after (k := 1) (cycles := fun _ => 1) (fun _ => rfl) (fun _ _ => rfl) fun _ _ => rfl

theorem addrAbs_ignoresRem (base : Addr) : ResolverIgnoresRem (addrAbs base) :=
  .of_after (k := 2) (cycles := fun _ => 2) (fun _ => rfl) (fun _ _ => rfl) fun _ _ => rfl

theorem addrZpx_ignoresRem (d8 : Byte) : ResolverIgnoresRem (addrZpx d8) :=
  .of_after (addrZpx_eq d8) (fun _ _ => rfl) fun _ _ => rfl

theorem addrZpy_ignoresRem (d8 : Byte) : ResolverIgnoresRem (addrZpy d8) :=
  .of_after (addrZpy_eq d8) (fun _ _ => rfl) fun _ _ => rfl

theorem addrAbsxRead_ignoresRem (base : Addr) : ResolverIgnoresRem (addrAbsxRead base) :=
  .of_after (addrAbsxRead_eq base) (fun _ _ => rfl) fun _ _ => rfl

theorem addrAbsyRead_ignoresRem (base : Addr) : ResolverIgnoresRem (addrAbsyRead base) :=
  .of_after (addrAbsyRead_eq base) (fun _ _ => rfl) fun _ _ => rfl

theorem addrAbsxWrite_ignoresRem (base : Addr) : ResolverIgnoresRem (addrAbsxWrite base) :=
  .of_after (addrAbsxWrite_eq base) (fun _ _ => rfl) fun _ _ => rfl

theorem addrAbsyWrite_ignoresRem (base : Addr) : ResolverIgnoresRem (addrAbsyWrite base) :=
  .of_after (addrAbsyWrite_eq base) (fun _ _ => rfl) fun _ _ => rfl

theorem addrIndxWith_ignoresRem (wrap : Bool) (d8 : Byte) : ResolverIgnoresRem (addrIndxWith wrap d8) :=
  .of_after (addrIndxWith_eq wrap d8) (fun _ _ => rfl) fun _ _ => rfl

theorem addrIndyWith_ignoresRem (wrap : Bool) (variant : Variant) (d8 : Byte) :
    ResolverIgnoresRem (addrIndyWith wrap variant d8) :=
  .of_after (addrIndyWith_eq wrap variant d8) (fun _ _ => rfl) fun _ _ => rfl

/-! ### Meanings -/

theorem ResolverIgnoresRem.loadValue {f : State → Byte × State} (hf : ResolverIgnoresRem f) (r : DataReg) :
    MeaningIgnoresRem fun s => loadValue r (f s) := fun s d => by
  simp only [Machine.loadValue, hf s d, addRem_load, outcomeAddRem]

theorem ResolverIgnoresRem.loadFrom {f : State → Addr × State} (hf : ResolverIgnoresRem f) (r : DataReg) :
    MeaningIgnoresRem fun s => loadFrom r (f s) := fun s d => by
  simp only [Machine.loadFrom, Machine.loadValue, hf s d, State.readByte_snd, addRem_tick, addRem_load, outcomeAddRem]
  rfl

theorem ResolverIgnoresRem.storeTo {f : State → Addr × State} (hf : ResolverIgnoresRem f) (r : DataReg) :
    MeaningIgnoresRem fun s => storeTo r (f s) := fun s d => by
  simp only [Machine.storeTo, hf s d, addRem_reg, addRem_writeByte, outcomeAddRem]

theorem execJsr_ignoresRem (target : Addr) : MeaningIgnoresRem (execJsr target) := fun s d => by
  simp only [execJsr_eq, outcomeAddRem, State.addRem, add_sub_right_comm]

theorem execRts_ignoresRem : MeaningIgnoresRem execRts := fun s d => by
  simp only [execRts_eq, outcomeAddRem, State.addRem, add_sub_right_comm]

/-- No instruction looks at the counter, under any parameters (R108). -/
theorem execWith_ignoresRem (cfg : Config) (i : Instr) : MeaningIgnoresRem (execWith cfg i) := by
  cases i with
  | ldaImm d8 | ldxImm d8 | ldyImm d8 => exact (operandImm_ignoresRem d8).loadValue _
  | ldaZp d8 | ldxZp d8 | ldyZp d8 => exact (addrZp_ignoresRem d8).loadFrom _
  | ldaZpx d8 | ldyZpx d8 => exact (addrZpx_ignoresRem d8).loadFrom _
  | ldxZpy d8 => exact (addrZpy_ignoresRem d8).loadFrom _
  | ldaAbs base | ldxAbs base | ldyAbs base => exact (addrAbs_ignoresRem base).loadFrom _
  | ldaAbsx base | ldyAbsx base => exact (addrAbsxRead_ignoresRem base).loadFrom _
  | ldaAbsy base | ldxAbsy base => exact (addrAbsyRead_ignoresRem base).loadFrom _
  | ldaIndx d8 => exact (addrIndxWith_ignoresRem _ d8).loadFrom _
  | ldaIndy d8 => exact (addrIndyWith_ignoresRem _ _ d8).loadFrom _
  | staZp d8 | stxZp d8 | styZp d8 => exact (addrZp_ignoresRem d8).storeTo _
  | staZpx d8 | styZpx d8 => exact (addrZpx_ignoresRem d8).storeTo _
  | staAbs base | stxAbs base | styAbs base => exact (addrAbs_ignoresRem base).storeTo _
  | staAbsx base => exact (addrAbsxWrite_ignoresRem base).storeTo _
  | staAbsy base => exact (addrAbsyWrite_ignoresRem base).storeTo _
  | staIndx d8 => exact (addrIndxWith_ignoresRem _ d8).storeTo _
  | staIndy d8 => exact (addrIndyWith_ignoresRem _ _ d8).storeTo _
  | jsr target => exact execJsr_ignoresRem target
  | rts => exact execRts_ignoresRem

theorem fetchWindow_addRem (s : State) (d : Int) : (s.addRem d).fetchWindow = s.fetchWindow := rfl

theorem fetchExecuteWith_ignoresRem (cfg : Config) : MeaningIgnoresRem (fetchExecuteWith cfg) := fun s d => by
  simp only [fetchExecuteWith, fetchWindow_addRem, addRem_opcodeFetched]
  cases decodeWith cfg.opcodeMap s.fetchWindow with
  | ok p => exact execWith_ignoresRem cfg p.1 s.opcodeFetched d
  | error _ => rfl

/-- No step looks at the counter, under any parameters (R108): it completes alike or faults alike. -/
theorem stepWith_ignoresRem (cfg : Config) : MeaningIgnoresRem (stepWith cfg) := fun s d => by
  cases hf : s.fault with
  | unimplementedOpcode b =>
    have hf' : (s.addRem d).fault = .unimplementedOpcode b := hf
    rw [stepWith_latched cfg hf, stepWith_latched cfg hf', outcomeAddRem]
  | none =>
    have hf' : (s.addRem d).fault = .none := hf
    rw [stepWith_unlatched cfg hf, stepWith_unlatched cfg hf', fetchExecuteWith_ignoresRem]

/-- A step that completes does so whatever the counter holds, at the same cost (R108). -/
theorem stepWith_rem {cfg : Config} {s t : State} (h : stepWith cfg s = .next t) (m : Int) :
    stepWith cfg { s with rem := m } = .next (t.addRem (m - s.rem)) := by
  rw [← addRem_sub, stepWith_ignoresRem, h, outcomeAddRem]

end Sys2Proof.Machine
end

section
/-! SUPPORT. The first instruction of an `Execute` (41_dispatch_execute.md R100, R106, R107), and the machine under every
injective opcode map. -/

namespace Sys2Proof.Machine

/-- A round of the loop whose step completes (R100). -/
theorem executeLoopWith_next {cfg : Config} {s t : State} (fuel : Nat) (hrem : s.rem > 0)
    (h : stepWith cfg s = .next t) : executeLoopWith cfg (fuel + 1) s = executeLoopWith cfg fuel t := by
  rw [executeLoopWith_succ, if_pos hrem, h]

/-- A round of the loop whose step faults (R107). -/
theorem executeLoopWith_fault {cfg : Config} {s : State} {f : Fault} (fuel : Nat) (hrem : s.rem > 0)
    (h : stepWith cfg s = .fault f) : executeLoopWith cfg (fuel + 1) s = .fault f := by
  rw [executeLoopWith_succ, if_pos hrem, h]

/-- A positive budget is fuel for a first round. -/
theorem toNat_eq_succ {n : Int} (hn : 1 ≤ n) : n.toNat = n.toNat - 1 + 1 := by omega

/-- An Execute whose first step completes goes on from there with one instruction less of fuel. -/
theorem executeWith_next {cfg : Config} {s t : State} {n : Int} (hf : s.fault = .none) (hn : 1 ≤ n)
    (h : stepWith cfg { s with rem := n } = .next t) :
    executeWith cfg n s = endExecute s n (executeLoopWith cfg (n.toNat - 1) t) := by
  rw [executeWith_unlatched cfg hf, toNat_eq_succ hn, executeLoopWith_next _ (show n > 0 by omega) h,
    Nat.add_sub_cancel]

/-- An Execute whose first step faults ends there (R107). -/
theorem executeWith_fault {cfg : Config} {s : State} {f : Fault} {n : Int} (hf : s.fault = .none) (hn : 1 ≤ n)
    (h : stepWith cfg { s with rem := n } = .fault f) : executeWith cfg n s = endExecute s n (.fault f) := by
  rw [executeWith_unlatched cfg hf, toNat_eq_succ hn, executeLoopWith_fault _ (show n > 0 by omega) h]

/-- A budget the first instruction uses up runs that instruction alone and returns its cost (R106). -/
theorem executeWith_one {cfg : Config} {s t : State} {n : Int} (hf : s.fault = .none) (h : stepWith cfg s = .next t)
    (hn : 1 ≤ n) (hcost : n ≤ s.rem - t.rem) :
    executeWith cfg n s = .done { t with rem := s.rem } (s.rem - t.rem) := by
  have hidle : (t.addRem (n - s.rem)).rem ≤ 0 := by show t.rem + (n - s.rem) ≤ 0; omega
  have hused : n - (t.rem + (n - s.rem)) = s.rem - t.rem := by omega
  rw [executeWith_next hf hn (stepWith_rem h n), executeLoopWith_idle cfg _ _ hidle, ← hused]
  rfl

/-- Every instruction completes and leaves `FAULT` alone, under any parameters (R113, R171). -/
theorem execWith_completes (cfg : Config) (i : Instr) (s : State) :
    ∃ t, execWith cfg i s = .next t ∧ t.fault = s.fault := by
  rcases execWith_cases cfg i s with ⟨r, v, c, he, -⟩ | ⟨r, ea, c, he, -⟩ | ⟨target, -, he⟩ | ⟨-, he⟩
  · exact ⟨_, he, load_fault r v _⟩
  all_goals exact ⟨_, he, rfl⟩

end Sys2Proof.Machine

namespace Sys2Proof.Claims

open Sys2Proof.Machine

/-- Settles O59: the bytes at `PC` decode to their instruction under an injective map, a step does not look at the counter,
and the loop of `Execute` ends after a step that uses the budget up or faults. -/
theorem configuredMachineRuns : Obligations.ConfiguredMachineRuns := by
  unfold Obligations.ConfiguredMachineRuns
  intro cfg s hmap hf
  refine ⟨fun i hi => ?_, fun hb => ⟨stepWith_unimplemented cfg hf hb, fun n hn => ?_⟩⟩
  · obtain ⟨rest, hd⟩ := decodeWith_fetchWindow hmap hi
    obtain ⟨t, ht, -⟩ := execWith_completes cfg i s.opcodeFetched
    have hstep := stepWith_decoded cfg hf hd
    exact ⟨hstep, t, ht, fun n hn hcost => executeWith_one hf (hstep.trans ht) hn hcost⟩
  · exact executeWith_fault hf hn (stepWith_unimplemented cfg (s := { s with rem := n }) hf hb)

end Sys2Proof.Claims
end

section
/-! SUPPORT. The flags never influence what an instruction does (10_state.md R18, R19): every operation answers the same
from states that differ in the flags at most, and leaves such states. -/

namespace Sys2Proof.Machine

open Sys2Proof.Claims

/-- `s` with the flags `g`. -/
def State.withFlags (s : State) (g : Flags) : State := { s with flags := g }

/-- States that differ in the flags at most are one state with two flag groups. -/
theorem equalButFlags_iff {s s' : State} : EqualButFlags s s' ↔ ∃ g, s' = s.withFlags g :=
  ⟨fun h => ⟨s'.flags, h.symm⟩, fun ⟨_, h⟩ => h ▸ rfl⟩

/-- Both outcomes complete, or both fault with one byte, and the states they carry differ in the flags at most. -/
inductive AgreeButFlags : Host.Outcome State Fault Refusal → Host.Outcome State Fault Refusal → Prop where
  | next {t t' : State} (h : EqualButFlags t t') : AgreeButFlags (.next t) (.next t')
  | fault (b : Byte) {t t' : State} (h : EqualButFlags t t') :
      AgreeButFlags (.fault (.unimplementedOpcode b t)) (.fault (.unimplementedOpcode b t'))

theorem AgreeButFlags.of_next {o o' : Host.Outcome State Fault Refusal} {t : State} (h : AgreeButFlags o o')
    (ho : o = .next t) : ∃ t', o' = .next t' ∧ EqualButFlags t t' := by
  cases h with
  | next h => cases ho; exact ⟨_, rfl, h⟩
  | fault _ _ => cases ho

theorem AgreeButFlags.of_fault {o o' : Host.Outcome State Fault Refusal} {b : Byte} {t : State}
    (h : AgreeButFlags o o') (ho : o = .fault (.unimplementedOpcode b t)) :
    ∃ t', o' = .fault (.unimplementedOpcode b t') ∧ EqualButFlags t t' := by
  cases h with
  | next _ => cases ho
  | fault _ h => cases ho; exact ⟨_, rfl, h⟩

/-! ### Loads and stores at what a resolver answered -/

/-- A load gives the register its value whatever the flags were, and computes `Z` and `N` from the value alone (R18). -/
theorem loadValue_agree (r : DataReg) (operand : Byte × State) (g : Flags) :
    AgreeButFlags (loadValue r operand) (loadValue r (operand.1, operand.2.withFlags g)) :=
  .next (by cases r <;> rfl)

theorem loadFrom_agree (r : DataReg) (resolved : Addr × State) (g : Flags) :
    AgreeButFlags (loadFrom r resolved) (loadFrom r (resolved.1, resolved.2.withFlags g)) :=
  loadValue_agree r (resolved.2.readByte resolved.1) g

/-- A store writes a register, which is no flag. -/
theorem storeTo_agree (r : DataReg) (resolved : Addr × State) (g : Flags) :
    AgreeButFlags (storeTo r resolved) (storeTo r (resolved.1, resolved.2.withFlags g)) :=
  .next (by cases r <;> rfl)

/-! ### Instructions and steps -/

/-- No instruction looks at a flag, under any parameters: the resolver of its mode answers the same address and hands the
flags on, and the load or the store agrees from there. -/
theorem execWith_agree (cfg : Config) (i : Instr) (s : State) (g : Flags) :
    AgreeButFlags (execWith cfg i s) (execWith cfg i (s.withFlags g)) := by
  cases i with
  | ldaImm d8 | ldxImm d8 | ldyImm d8 => exact loadValue_agree _ (operandImm d8 s) g
  | ldaZp d8 | ldxZp d8 | ldyZp d8 => exact loadFrom_agree _ (addrZp d8 s) g
  | ldaZpx d8 | ldyZpx d8 => exact loadFrom_agree _ (addrZpx d8 s) g
  | ldxZpy d8 => exact loadFrom_agree _ (addrZpy d8 s) g
  | ldaAbs base | ldxAbs base | ldyAbs base => exact loadFrom_agree _ (addrAbs base s) g
  | ldaAbsx base | ldyAbsx base => exact loadFrom_agree _ (addrAbsxRead base s) g
  | ldaAbsy base | ldxAbsy base => exact loadFrom_agree _ (addrAbsyRead base s) g
  | ldaIndx d8 => rw [execWith_ldaIndx, execWith_ldaIndx]; exact loadFrom_agree _ (_, s.after _ _) g
  | ldaIndy d8 => rw [execWith_ldaIndy, execWith_ldaIndy]; exact loadFrom_agree _ (_, s.after _ _) g
  | staZp d8 | stxZp d8 | styZp d8 => exact storeTo_agree _ (addrZp d8 s) g
  | staZpx d8 | styZpx d8 => exact storeTo_agree _ (addrZpx d8 s) g
  | staAbs base | stxAbs base | styAbs base => exact storeTo_agree _ (addrAbs base s) g
  | staAbsx base => exact storeTo_agree _ (addrAbsxWrite base s) g
  | staAbsy base => exact storeTo_agree _ (addrAbsyWrite base s) g
  | staIndx d8 => rw [execWith_staIndx, execWith_staIndx]; exact storeTo_agree _ (_, s.after _ _) g
  | staIndy d8 => rw [execWith_staIndy, execWith_staIndy]; exact storeTo_agree _ (_, s.after _ _) g
  | jsr target => exact .next rfl
  | rts => exact .next rfl

theorem fetchWindow_withFlags (s : State) (g : Flags) : (s.withFlags g).fetchWindow = s.fetchWindow := rfl

/-- No step looks at a flag, under any parameters: it reads the latch, the bytes at `PC` and then runs the handler. -/
theorem stepWith_agree (cfg : Config) (s : State) (g : Flags) :
    AgreeButFlags (stepWith cfg s) (stepWith cfg (s.withFlags g)) := by
  cases hf : s.fault with
  | unimplementedOpcode b =>
    rw [stepWith_latched cfg hf, stepWith_latched cfg (s := s.withFlags g) hf]
    exact .fault b rfl
  | none =>
    rw [stepWith_unlatched cfg hf, stepWith_unlatched cfg (s := s.withFlags g) hf, fetchExecuteWith, fetchExecuteWith,
      fetchWindow_withFlags]
    cases decodeWith cfg.opcodeMap s.fetchWindow with
    | ok p => exact execWith_agree cfg p.1 s.opcodeFetched g
    | error _ => exact .fault _ rfl

end Sys2Proof.Machine

namespace Sys2Proof.Claims

open Sys2Proof.Machine

/-- Settles O41: a step from the state with other flags agrees with the step from the state itself. -/
theorem flagsNeverInfluenceExecution : Obligations.FlagsNeverInfluenceExecution := by
  unfold Obligations.FlagsNeverInfluenceExecution
  intro s s' h
  obtain ⟨g, rfl⟩ := equalButFlags_iff.mp h
  have hagree : AgreeButFlags (step s) (step (s.withFlags g)) := stepWith_agree Config.standard s g
  exact ⟨fun t => hagree.of_next, fun b t => hagree.of_fault⟩

end Sys2Proof.Claims
end

section
/-! What an instruction writes outside memory (10_state.md R12, R16, R18, R19): a load its register and the flags, every
other instruction `PC` and the counter only; and what every step and every run therefore keep. -/

namespace Sys2Proof.Claims

open Sys2Proof.Machine

/-- Everything an instruction can do, by the register it is the load of: a load of some value into that register, or, if
it is no load, a change of memory, `PC` and the counter at most. -/
theorem exec_loadTarget_cases (i : Instr) (s : State) :
    (∃ r v pc rem, loadTarget i = some r ∧ exec i s = .next (load r v { s with pc := pc, rem := rem })) ∨
    (loadTarget i = none ∧ ∃ mem pc rem, exec i s = .next { s with mem := mem, pc := pc, rem := rem }) := by
  cases i with
  | ldaImm _ | ldaZp _ | ldaZpx _ | ldaAbs _ | ldaAbsx _ | ldaAbsy _ | ldaIndx _ | ldaIndy _ =>
    exact .inl ⟨.a, _, _, _, rfl, rfl⟩
  | ldxImm _ | ldxZp _ | ldxZpy _ | ldxAbs _ | ldxAbsy _ => exact .inl ⟨.x, _, _, _, rfl, rfl⟩
  | ldyImm _ | ldyZp _ | ldyZpx _ | ldyAbs _ | ldyAbsx _ => exact .inl ⟨.y, _, _, _, rfl, rfl⟩
  | staZp _ | staZpx _ | staAbs _ | staAbsx _ | staAbsy _ | staIndx _ | staIndy _ | stxZp _ | stxAbs _ | styZp _
  | styZpx _ | styAbs _ | jsr _ | rts => exact .inr ⟨rfl, _, _, _, rfl⟩

/-- Settles O37: a load writes the register it is the load of, and an instruction that is no load writes none. -/
theorem onlyLoadsWriteRegistersAndFlags : Obligations.OnlyLoadsWriteRegistersAndFlags := by
  unfold Obligations.OnlyLoadsWriteRegistersAndFlags
  intro i s t ht
  rcases exec_loadTarget_cases i s with ⟨r, v, pc, rem, hi, he⟩ | ⟨hi, mem, pc, rem, he⟩
  · cases he.symm.trans ht
    refine ⟨fun q hq => ?_, fun hn => nomatch hi.symm.trans hn⟩
    have hqr : q ≠ r := fun h => hq (h ▸ hi)
    rw [load_reg_other r q v _ hqr]
    cases q <;> rfl
  · cases he.symm.trans ht
    exact ⟨fun q _ => by cases q <;> rfl, fun _ => rfl⟩

/-- No instruction writes `SP` or a storage-only flag: `SetZN` is the only flag computation (R19). -/
theorem exec_keeps_storageOnly {i : Instr} {s t : State} (ht : exec i s = .next t) :
    t.sp = s.sp ∧ t.flags.c = s.flags.c ∧ t.flags.i = s.flags.i ∧ t.flags.d = s.flags.d ∧ t.flags.b = s.flags.b ∧
    t.flags.v = s.flags.v := by
  rcases exec_loadTarget_cases i s with ⟨r, v, pc, rem, -, he⟩ | ⟨-, mem, pc, rem, he⟩
  · cases he.symm.trans ht
    rw [load_sp, load_flags]
    exact ⟨rfl, rfl, rfl, rfl, rfl, rfl⟩
  · cases he.symm.trans ht
    exact ⟨rfl, rfl, rfl, rfl, rfl, rfl⟩

/-- A step that completes ran an instruction after the opcode fetch (R101). -/
theorem exec_of_step_next {s t : State} (h : step s = .next t) : ∃ i, exec i s.opcodeFetched = .next t := by
  rcases step_cases s with ⟨b, -, he⟩ | ⟨-, -, he⟩ | ⟨-, o, -, he⟩
  · cases he.symm.trans h
  · cases he.symm.trans h
  · exact ⟨_, he.symm.trans h⟩

/-- Settles O39: the opcode fetch and the instruction both keep `SP` and the storage-only flags. -/
theorem stepKeepsStorageOnlyState : Obligations.StepKeepsStorageOnlyState := by
  unfold Obligations.StepKeepsStorageOnlyState
  intro s t h
  obtain ⟨i, hi⟩ := exec_of_step_next h
  simpa only [State.opcodeFetched_sp, State.opcodeFetched_flags] using exec_keeps_storageOnly hi

/-- `SP` along a run (R16). -/
theorem sp_of_reaches {s t : State} (h : Reaches s t) : t.sp = s.sp := by
  induction h with
  | refl => rfl
  | tail _ hstep ih =>
    obtain ⟨hsp, -⟩ := stepKeepsStorageOnlyState _ _ hstep
    exact hsp.trans ih

/-- Settles O40, by induction on the run. -/
theorem stackPointerNeverMoves : Obligations.StackPointerNeverMoves := by
  unfold Obligations.StackPointerNeverMoves
  exact ⟨fun _ _ => sp_of_reaches, rfl⟩

end Sys2Proof.Claims
end

section
/-! The transactions and the counter: `rem` exists during an `Execute` only (10_state.md R22, R25; log 5). -/

namespace Sys2Proof.Machine

/-- `s` with the value `m` in the field `rem`. -/
def State.withRem (s : State) (m : Int) : State := { s with rem := m }

/-- The same of the state an `Execute` leaves. -/
def ExecuteOutcome.withRem (m : Int) : ExecuteOutcome → ExecuteOutcome
  | .done left used => .done (left.withRem m) used
  | .faulted left opcode => .faulted (left.withRem m) opcode
  | .refused why => .refused why

/-- The end of an `Execute` takes from the state it began in only the value the field gets back. -/
theorem endExecute_withRem (s : State) (n m : Int) (o : Host.Outcome State Fault Refusal) :
    endExecute (s.withRem m) n o = (endExecute s n o).withRem m := by
  match o with
  | .next _ | .fault (.unimplementedOpcode _ _) | .refused _ => rfl

/-- An `Execute` begins by setting the counter to its budget, so what the field held before does not reach the loop. -/
theorem executeWith_withRem (cfg : Config) (n m : Int) (s : State) :
    executeWith cfg n (s.withRem m) = (executeWith cfg n s).withRem m := by
  cases hf : s.fault with
  | unimplementedOpcode b =>
    rw [executeWith_latched cfg hf, executeWith_latched cfg (s := s.withRem m) hf, ExecuteOutcome.withRem]
  | none =>
    rw [executeWith_unlatched cfg hf, executeWith_unlatched cfg (s := s.withRem m) hf]
    exact endExecute_withRem s n m _

/-- An accepted transaction gives the same reply whatever the field holds, and the same state but for the field. -/
theorem transactWith_withRem {cfg : Config} {s s' : State} {t : Transaction} {reply : Reply}
    (h : s.transactWith cfg t = .ok (s', reply)) (m : Int) :
    (s.withRem m).transactWith cfg t = .ok (s'.withRem m, reply) := by
  cases t with
  | execute n =>
    rw [State.transactWith] at h ⊢
    rw [executeWith_withRem]
    cases hx : executeWith cfg n s with
    | done left used | faulted left opcode => rw [hx] at h; cases h; rfl
    | refused why => rw [hx] at h; cases h
  | pokeReg r v => cases h; cases r <;> rfl
  | _ => cases h; rfl

end Sys2Proof.Machine

namespace Sys2Proof.Claims

open Sys2Proof.Machine

/-- Settles O57: the field's value does not matter, so putting its own value back shows that the transaction kept it. -/
theorem counterInvisibleToHost : Obligations.CounterInvisibleToHost := by
  unfold Obligations.CounterInvisibleToHost
  intro s s' t reply n h
  have hown : s.transact t = .ok (s'.withRem s.rem, reply) := transactWith_withRem h s.rem
  have hs' : s' = s'.withRem s.rem := congrArg Prod.fst (Except.ok.inj (h.symm.trans hown))
  have hrem := congrArg State.rem hs'
  exact ⟨hrem, transactWith_withRem h n⟩

end Sys2Proof.Claims
end

section
/-! Reset, the block before its first Reset, and the host's peeks and pokes (10_state.md R25 to R27). -/

namespace Sys2Proof.Machine

/-- A poke of a register keeps everything but the three data registers (R12). -/
theorem setReg_eq_registers (s : State) (r : DataReg) (v : Byte) :
    s.setReg r v = { s with a := (s.setReg r v).a, x := (s.setReg r v).x, y := (s.setReg r v).y } := by
  cases r <;> rfl

/-- Every data register is zero after Reset (R26). -/
theorem resetAtWith_reg (cfg : Config) (s : State) (addr : Addr) (r : DataReg) :
    (s.resetAtWith cfg addr).reg r = 0x00 := by cases r <;> rfl

/-- Every cell is zero after Reset (R26, R37). -/
theorem resetAtWith_read (cfg : Config) (s : State) (addr a : Addr) : (s.resetAtWith cfg addr).mem.read a = 0x00 :=
  Memory.read_zeroed a

end Sys2Proof.Machine

namespace Sys2Proof.Claims

open Sys2Proof.Machine

/-- Settles O52: Reset writes every component but `rem`, two of them from the parameters. -/
theorem resetLeaves : Obligations.ResetLeaves := by
  unfold Obligations.ResetLeaves
  refine ⟨fun s addr => ⟨rfl, rfl, rfl, ?_, rfl, ?_, rfl, rfl, rfl⟩, fun cfg s addr => ⟨rfl, rfl, rfl⟩⟩
  · exact resetAtWith_reg Config.standard s addr
  · exact resetAtWith_read Config.standard s addr

/-- Settles O53: the memory Reset leaves lists no cell. -/
theorem resetHasCanonicalMemory : Obligations.ResetHasCanonicalMemory := by
  unfold Obligations.ResetHasCanonicalMemory
  exact ⟨Memory.wf_zeroed, resetAtWith_wf Config.standard⟩

/-- Settles O54: before the first Reset the answer depends on the kind of transaction only (R27; D7). -/
theorem nothingBeforeFirstReset : Obligations.NothingBeforeFirstReset := by
  unfold Obligations.NothingBeforeFirstReset
  exact ⟨fun _ => rfl, fun _ => rfl, fun _ => rfl, fun _ => rfl, by decide, fun _ _ => rfl, fun _ _ => rfl, fun _ => rfl,
    fun _ => rfl, fun _ _ => rfl, rfl, fun _ => rfl⟩

/-- Settles O55: the write-then-read law of each component. -/
theorem pokeThenPeek : Obligations.PokeThenPeek := by
  unfold Obligations.PokeThenPeek
  intro s hs
  refine ⟨fun a v => ⟨_, transact_pokeMem s a v, ?_, fun c => Memory.read_write_other s.mem a c v, rfl⟩,
    fun r v => ⟨_, transact_pokeReg s r v, ?_, fun q => State.setReg_reg_other s r q v, setReg_eq_registers s r v⟩,
    fun f v => ⟨_, transact_pokeFlag s f v, ?_, fun g => set_get_other s.flags f g v, rfl⟩,
    fun v => ⟨_, transact_pokePc s v, transact_peekPc _, rfl⟩,
    fun v => ⟨_, transact_pokeSp s v, transact_peekSp _, rfl⟩,
    transact_peekMem s, transact_peekReg s, transact_peekFlag s, transact_peekPc s, transact_peekSp s,
    transact_peekFault s⟩
  · rw [transact_peekMem, Memory.read_write_same hs]
  · rw [transact_peekReg, State.setReg_reg_same]
  · rw [transact_peekFlag, set_get_same]

end Sys2Proof.Claims
end

section
/-! Memory (20_memory.md): word writes against byte and word reads (R35, R36, R38), the cells an instruction may write (R40),
and the fetch that follows a store (R46). -/

namespace Sys2Proof.Machine.Memory

/-- The low byte of a word write stands at the address, and the high byte's write does not reach it (R36). -/
theorem read_writeWord_low {m : Memory} (h : m.wf) (a v : Addr) : (m.writeWord a v).read a = loByte v := by
  rw [writeWord, read_write_other _ _ _ _ (addr_succ_ne a).symm, read_write_same h]

/-- The high byte of a word write stands at the 16-bit successor (R36). -/
theorem read_writeWord_high {m : Memory} (h : m.wf) (a v : Addr) : (m.writeWord a v).read (a + 1) = hiByte v :=
  read_write_same (write_wf h a _) (a + 1) (hiByte v)

/-- A word write changes its two cells at most (R36). No canonical form is needed. -/
theorem read_writeWord_other (m : Memory) (a v c : Addr) (hlow : c ≠ a) (hhigh : c ≠ a + 1) :
    (m.writeWord a v).read c = m.read c := by
  rw [writeWord, read_write_other _ _ _ _ hhigh, read_write_other _ _ _ _ hlow]

/-- A word read after a word write at the same address (R35, R36). -/
theorem readWord_writeWord {m : Memory} (h : m.wf) (a v : Addr) : (m.writeWord a v).readWord a = v := by
  rw [readWord, read_writeWord_high h, read_writeWord_low h, word_hiByte_loByte]

end Sys2Proof.Machine.Memory

namespace Sys2Proof.Claims

open Sys2Proof.Machine

/-- The 16-bit value in two cells is the word read (R35). -/
theorem wordAt_eq (m : Memory) (a : Addr) : wordAt m a = m.readWord a := ofNat_bytes _ _

/-- The index addition within page 0 (R80, R81). -/
theorem zpIndexed_eq (d8 idx : Byte) : zpIndexed d8 idx = zext16 (d8 + idx) := by
  rw [zpIndexed, ← zp_eq, zp, BitVec.toNat_add]

/-- Settles O24: each half is read back from its own cell, and the two cells are distinct. -/
theorem wordWriteThenRead : Obligations.WordWriteThenRead := by
  unfold Obligations.WordWriteThenRead
  intro m a v hm
  refine ⟨Memory.readWord_writeWord hm a v, ?_, ?_, ?_, Memory.read_writeWord_other m a v⟩
  · rw [wordAt_eq, Memory.readWord_writeWord hm]
  · rw [Memory.read_writeWord_low hm, loByte_toNat]
  · rw [Memory.read_writeWord_high hm, hiByte_toNat]

/-- What an instruction leaves of the memory, by the addresses it may write: the memory itself if there is none, one byte
written if there is one, the word at `SP` written if they are its two cells. -/
inductive WritesOnly (s t : State) : List Addr → Prop where
  | nothing (hmem : t.mem = s.mem) : WritesOnly s t []
  | byte (ea : Addr) (v : Byte) (hmem : t.mem = s.mem.write ea v) : WritesOnly s t [ea]
  | stackWord (v : Addr) (hmem : t.mem = s.mem.writeWord s.sp v) : WritesOnly s t [s.sp, s.sp + 1]

/-- A load writes no memory if resolving its address wrote none (R120). -/
theorem loadFrom_writesOnly {s : State} (r : DataReg) {resolved : Addr × State} (hmem : resolved.2.mem = s.mem) :
    ∃ t, loadFrom r resolved = .next t ∧ WritesOnly s t [] :=
  ⟨_, rfl, .nothing ((load_mem _ _ _).trans hmem)⟩

/-- A store writes the address resolved, if resolving it wrote no memory (R140). -/
theorem storeTo_writesOnly {s : State} (r : DataReg) {ea : Addr} {resolved : Addr × State} (hea : resolved.1 = ea)
    (hmem : resolved.2.mem = s.mem) : ∃ t, storeTo r resolved = .next t ∧ WritesOnly s t [ea] :=
  ⟨_, rfl, .byte ea _ (by rw [State.writeByte_mem, hea, hmem])⟩

/-- Every instruction, run after the opcode fetch, writes the addresses of its row in R40 and no other: the resolvers
answer them, and the memory they read is the one before the fetch. -/
theorem exec_writesOnly (i : Instr) (s : State) :
    ∃ t, exec i s.opcodeFetched = .next t ∧ WritesOnly s t (storedAt i s) := by
  cases i with
  | ldaImm _ | ldxImm _ | ldyImm _ => exact ⟨_, rfl, .nothing (load_mem _ _ _)⟩
  | ldaZp _ | ldaZpx _ | ldaAbs _ | ldaAbsx _ | ldaAbsy _ | ldxZp _ | ldxZpy _ | ldxAbs _ | ldxAbsy _ | ldyZp _
  | ldyZpx _ | ldyAbs _ | ldyAbsx _ => exact loadFrom_writesOnly _ rfl
  | ldaIndx d8 => exact loadFrom_writesOnly .a (congrArg (·.2.mem) (addrIndx_eq d8 _))
  | ldaIndy d8 => exact loadFrom_writesOnly .a (congrArg (·.2.mem) (addrIndyRead_eq d8 _))
  | staZp d8 | stxZp d8 | styZp d8 => exact storeTo_writesOnly _ (zp_eq d8).symm rfl
  | staZpx d8 | styZpx d8 => exact storeTo_writesOnly _ (zpIndexed_eq d8 s.x).symm rfl
  | staAbs _ | stxAbs _ | styAbs _ => exact storeTo_writesOnly _ rfl rfl
  | staAbsx base => exact storeTo_writesOnly .a (absIndexed_eq base s.x).symm rfl
  | staAbsy base => exact storeTo_writesOnly .a (absIndexed_eq base s.y).symm rfl
  | staIndx d8 =>
    have hea : wordAt s.mem (zpIndexed d8 s.x) = s.mem.readWord (zext16 (d8 + s.x)) := by rw [wordAt_eq, zpIndexed_eq]
    rw [exec, execStaIndx_eq, addrIndx_eq]
    exact storeTo_writesOnly .a hea.symm rfl
  | staIndy d8 =>
    have hea : absIndexed (wordAt s.mem (zp d8)) s.y = s.mem.readWord (zext16 d8) + zext16 s.y := by
      rw [absIndexed_eq, wordAt_eq, zp_eq]
    rw [exec, execStaIndy_eq, addrIndyWrite_eq]
    exact storeTo_writesOnly .a hea.symm rfl
  | jsr target => exact ⟨_, execJsr_eq target _, .stackWord _ rfl⟩
  | rts => exact ⟨_, execRts_eq _, .nothing rfl⟩

/-- A cell outside the addresses written reads as before. -/
theorem WritesOnly.read_eq {s t : State} {written : List Addr} (h : WritesOnly s t written) {a : Addr}
    (ha : a ∉ written) : t.mem.read a = s.mem.read a := by
  cases h with
  | nothing hmem => rw [hmem]
  | byte ea v hmem =>
    rw [hmem, Memory.read_write_other _ _ _ _ (List.ne_of_not_mem_cons ha)]
  | stackWord v hmem =>
    obtain ⟨hlow, hrest⟩ := List.ne_and_not_mem_of_not_mem_cons ha
    rw [hmem, Memory.read_writeWord_other _ _ _ _ hlow (List.ne_of_not_mem_cons hrest)]

/-- With no address written the memory is the same list. -/
theorem WritesOnly.mem_eq {s t : State} (h : WritesOnly s t []) : t.mem = s.mem := by
  cases h with
  | nothing hmem => exact hmem

/-- Settles O38: the shape of an instruction's write gives its frame. -/
theorem onlyStoresAndCallsWriteMemory : Obligations.OnlyStoresAndCallsWriteMemory := by
  unfold Obligations.OnlyStoresAndCallsWriteMemory
  intro i s t ht
  obtain ⟨t', ht', hw⟩ := exec_writesOnly i s
  cases ht'.symm.trans ht
  exact ⟨fun a ha => hw.read_eq ha, fun hnone => WritesOnly.mem_eq (hnone ▸ hw)⟩

/-- Settles O44: STA absolute is 3 bytes long, so the cell it stores to is the one at the new `PC`. -/
theorem storeSeenByNextFetch : Obligations.StoreSeenByNextFetch := by
  unfold Obligations.StoreSeenByNextFetch
  intro s t hs ht
  obtain ⟨t', ht', hcell, -, -, -, hpc, -⟩ := storeTo_stored .a (s.pc + 3) 2 2 hs
  cases ht'.symm.trans ht
  calc t.mem.read t.pc = t.mem.read (s.pc + 3) := congrArg t.mem.read hpc
    _ = s.a := hcell

end Sys2Proof.Claims
end

section
/-! The round trips of the encoding (30_encoding.md R50 to R57): what the decoder accepts is the encoding of what it
answers, and the reverse, for every opcode map and for the rows of R56. -/

namespace Sys2Proof

/-! ### What the decoder accepts -/

/-- The operand bytes of a decoded instruction are those its format has (R51, R53). -/
theorem Opcode.operandBytes_instr (o : Opcode) (b1 b2 : Byte) :
    (o.instr b1 b2).operandBytes = [b1, b2].take (o.length - 1) := by
  cases o <;> simp [Opcode.instr, Instr.operandBytes, Opcode.length, Opcode.mode, Mode.format, Format.length]

/-- The operands the decoder takes are the operand bytes of the instruction it answers (R50, R51). -/
theorem decodeOperands_ok {o : Opcode} {bytes rest : List Byte} {i : Instr}
    (h : decodeOperands o bytes = .ok (i, rest)) : i.opcode = o ∧ bytes = i.operandBytes ++ rest := by
  unfold decodeOperands at h
  split at h
  case h_4 => cases h
  all_goals
    cases h
    refine ⟨o.instr_opcode _ _, ?_⟩
    simp [Opcode.operandBytes_instr, Opcode.length, *, Format.length]

/-- The bytes the decoder accepts are the encoding of its answer and the rest, for every map (R50, R54). -/
theorem eq_encodeWith_of_decodeWith {map : OpcodeMap} {bytes rest : List Byte} {i : Instr}
    (h : decodeWith map bytes = .ok (i, rest)) : bytes = encodeWith map i ++ rest := by
  unfold decodeWith at h
  split at h
  case h_1 => cases h
  case h_2 b operands =>
    split at h
    case h_1 => cases h
    case h_2 o ho =>
      obtain ⟨hopcode, hoperands⟩ := decodeOperands_ok h
      rw [encodeWith, hopcode, opcodeOf_some ho, hoperands, List.cons_append]

/-! ### The rows of the table -/

/-- Under the default map an opcode's byte leaves the operands to decode (R52, R56). -/
theorem decode_standard (o : Opcode) (bytes : List Byte) :
    decode (standardOpcodeMap o :: bytes) = decodeOperands o bytes := by
  have ho : opcodeOf Config.standard.opcodeMap (standardOpcodeMap o) = some o :=
    opcodeOf_map standardOpcodeMap_wellFormed o
  simp only [decode, decodeWith, ho]

/-- A row with a one-byte operand. -/
theorem decode_byteOperand (o : Opcode) (ho : o.mode.format = .f2) (d8 : Byte) (rest : List Byte) :
    decode (standardOpcodeMap o :: d8 :: rest) = .ok (o.instr d8 0, rest) := by
  simp only [decode_standard, decodeOperands, ho]

/-- A row with a two-byte operand, low byte first. -/
theorem decode_wordOperand (o : Opcode) (ho : o.mode.format = .f3) (lo8 hi8 : Byte) (rest : List Byte) :
    decode (standardOpcodeMap o :: lo8 :: hi8 :: rest) = .ok (o.instr lo8 hi8, rest) := by
  simp only [decode_standard, decodeOperands, ho]

/-! ### Lengths -/

/-- An instruction is its opcode byte and its operand bytes long (R51, R52). -/
theorem Instr.length_eq (i : Instr) : i.length = i.operandBytes.length + 1 := by cases i <;> rfl

theorem length_encodeWith (map : OpcodeMap) (i : Instr) : (encodeWith map i).length = i.length := by
  rw [encodeWith, List.length_cons, Instr.length_eq]

/-- The instruction a table word decodes to is the decoder's answer on its bytes. -/
theorem decode_of_decodeTableWord {nbits w : Nat} {i : Instr} (h : decodeTableWord nbits w = some i) :
    ∃ rest, decode (tableBytes nbits w) = .ok (i, rest) := by
  unfold decodeTableWord at h
  split at h
  case h_1 j rest hd => cases h; exact ⟨rest, hd⟩
  case h_2 => cases h

end Sys2Proof

namespace Sys2Proof.Claims

open Sys2Proof.Machine

/-- Settles O26: the opcode is looked up under an injective map, and the operand bytes are taken back whole. -/
theorem decodeOfEncode : Obligations.DecodeOfEncode := by
  unfold Obligations.DecodeOfEncode
  intro map hmap i rest _
  exact decodeWith_encodeWith hmap i rest

/-- Settles O27: the byte looked up is the opcode's, and the operands taken are the instruction's. -/
theorem encodeOfDecode : Obligations.EncodeOfDecode := by
  unfold Obligations.EncodeOfDecode
  intro map bytes rest i h
  exact eq_encodeWith_of_decodeWith h

/-- Settles O28, by the row's format, from the injectivity of the default map (D1). -/
theorem tableWordsDecode : Obligations.TableWordsDecode := by
  unfold Obligations.TableWordsDecode
  refine ⟨decode_wordOperand .jsr rfl 0x34 0x12 [], fun d8 lo8 hi8 rest => ?_⟩
  have hbyte := fun o ho => decode_byteOperand o ho d8 rest
  have hword := fun o ho => decode_wordOperand o ho lo8 hi8 rest
  exact ⟨hbyte .ldaImmediate rfl, hbyte .ldaZeropage rfl, hbyte .ldaZeropageX rfl, hword .ldaAbsolute rfl,
    hword .ldaAbsoluteX rfl, hword .ldaAbsoluteY rfl, hbyte .ldaIndirectX rfl, hbyte .ldaIndirectY rfl,
    hbyte .ldxImmediate rfl, hbyte .ldxZeropage rfl, hbyte .ldxZeropageY rfl, hword .ldxAbsolute rfl,
    hword .ldxAbsoluteY rfl,
    hbyte .ldyImmediate rfl, hbyte .ldyZeropage rfl, hbyte .ldyZeropageX rfl, hword .ldyAbsolute rfl,
    hword .ldyAbsoluteX rfl,
    hbyte .staZeropage rfl, hbyte .staZeropageX rfl, hword .staAbsolute rfl, hword .staAbsoluteX rfl,
    hword .staAbsoluteY rfl, hbyte .staIndirectX rfl, hbyte .staIndirectY rfl,
    hbyte .stxZeropage rfl, hword .stxAbsolute rfl,
    hbyte .styZeropage rfl, hbyte .styZeropageX rfl, hword .styAbsolute rfl,
    hword .jsr rfl, decode_standard .rts rest⟩

end Sys2Proof.Claims
end

section
/-! The step on the bytes at `PC` (41_dispatch_execute.md R101), and the bytes that `withFetchWord` places there
(20_memory.md R42; log 12). -/

namespace Sys2Proof.Machine

/-- The address of the next byte, counted from its predecessor (R31). -/
theorem add_ofNat_succ (a : Addr) (k : Nat) : a + BitVec.ofNat 16 (k + 1) = a + 1 + BitVec.ofNat 16 k := by
  rw [Nat.add_comm, BitVec.ofNat_add, ← BitVec.add_assoc]; rfl

namespace Memory

/-- Bytes placed elsewhere do not change a cell (R42). No canonical form is needed. -/
theorem read_writeBytes_other {m : Memory} {a b : Addr} {vs : List Byte}
    (h : ∀ k < vs.length, b ≠ a + BitVec.ofNat 16 k) : (m.writeBytes a vs).read b = m.read b := by
  induction vs generalizing m a with
  | nil => rfl
  | cons v vs ih =>
    have hfirst : b ≠ a := BitVec.add_zero a ▸ h 0 (Nat.succ_pos _)
    have hrest : ∀ k < vs.length, b ≠ a + 1 + BitVec.ofNat 16 k := fun k hk =>
      add_ofNat_succ a k ▸ h (k + 1) (Nat.succ_lt_succ hk)
    rw [writeBytes, ih hrest, read_write_other _ _ _ _ hfirst]

/-- Bytes placed at consecutive addresses modulo 2^16 are read back there, if they are no more than the cells (R42). -/
theorem read_writeBytes {m : Memory} (hm : m.wf) (a : Addr) {vs : List Byte} (hlen : vs.length ≤ 65536) {k : Nat}
    (hk : k < vs.length) : (m.writeBytes a vs).read (a + BitVec.ofNat 16 k) = vs[k] := by
  induction vs generalizing m a k with
  | nil => exact absurd hk (Nat.not_lt_zero k)
  | cons v vs ih =>
    rw [List.length_cons] at hlen hk
    cases k with
    | zero =>
      have hother : ∀ j < vs.length, a ≠ a + 1 + BitVec.ofNat 16 j := fun j hj => by bv_omega
      rw [BitVec.add_zero, writeBytes, read_writeBytes_other hother, read_write_same hm, List.getElem_cons_zero]
    | succ k =>
      rw [add_ofNat_succ, writeBytes, List.getElem_cons_succ]
      exact ih (write_wf hm a v) (a + 1) (by omega) (by omega)

end Memory

/-- The bytes of a placed table word are those the next step reads. -/
theorem fetchWindow_withFetchWord {s : State} (h : s.wf) (nbits w : Nat) :
    (s.withFetchWord nbits w).fetchWindow = tableBytes nbits w :=
  List.ext_getElem rfl fun k hk hk' => by
    rw [getElem_fetchWindow _ k hk]
    exact Memory.read_writeBytes h s.pc (vs := tableBytes nbits w) (show 3 ≤ 65536 by decide) hk'

/-- When the bytes at `PC` decode to an instruction, a step of this machine is the opcode fetch and that instruction. -/
theorem step_decoded {s : State} {i : Instr} {rest : List Byte} (hf : s.fault = .none)
    (hd : decode s.fetchWindow = .ok (i, rest)) : step s = exec i s.opcodeFetched := by
  rw [step, stepWith_decoded Config.standard hf hd, execWith_standard]

end Sys2Proof.Machine

namespace Sys2Proof.Claims

open Sys2Proof.Machine

/-- Settles O31: the bytes at `PC` are a prefix of what the step reads, and the decoder reads the instruction back. -/
theorem encodedInstructionRuns : Obligations.EncodedInstructionRuns := by
  unfold Obligations.EncodedInstructionRuns
  intro s i hf hi
  obtain ⟨rest, hd⟩ := decodeWith_fetchWindow standardOpcodeMap_wellFormed hi
  exact step_decoded hf hd

/-- Settles O33: the lookup of the byte answers nothing, so the step raises the exception after the opcode fetch. -/
theorem unimplementedOpcodeFaults : Obligations.UnimplementedOpcodeFaults := by
  unfold Obligations.UnimplementedOpcodeFaults
  intro s hf hb
  exact stepWith_unimplemented Config.standard hf hb

/-- Settles O45: the next step reads the placed bytes, which decode to the instruction of the word. -/
theorem placedWordRuns : Obligations.PlacedWordRuns := by
  unfold Obligations.PlacedWordRuns
  intro s nbits w i hs hw
  obtain ⟨rest, hd⟩ := decode_of_decodeTableWord hw
  rw [← fetchWindow_withFetchWord hs nbits w] at hd
  exact step_decoded rfl hd

end Sys2Proof.Claims
end

section
/-! The length and the cost of every instruction (30_encoding.md R51, R52, R56; 70_reset_and_hazards.md R203). -/

namespace Sys2Proof.Claims

open Sys2Proof.Machine

/-- Every instruction but JSR and RTS leaves `PC` its length past its opcode (R139, R153). -/
theorem exec_pc {i : Instr} {s t : State} (h : exec i s.opcodeFetched = .next t) (hjsr : i.opcode ≠ .jsr)
    (hrts : i.opcode ≠ .rts) : t.pc = s.pc + BitVec.ofNat 16 i.length := by
  rw [Instr.length_eq]
  rcases exec_cases i s.opcodeFetched with ⟨r, v, c, he, -⟩ | ⟨r, ea, c, he, -⟩ | ⟨target, rfl, -⟩ | ⟨rfl, -⟩
  · cases he.symm.trans h
    rw [opcodeFetched_after, load_pc, after_pc]
  · cases he.symm.trans h
    rw [opcodeFetched_after, State.writeByte_pc, after_pc]
  · exact absurd rfl hjsr
  · exact absurd rfl hrts

/-- Settles O29: the length counts the opcode byte and the operand bytes, and a handler moves `PC` past the latter. -/
theorem lengthIsEncodedLength : Obligations.LengthIsEncodedLength := by
  unfold Obligations.LengthIsEncodedLength
  intro i map
  have hlen := length_encodeWith map i
  have hmax := encodeWith_length_le map i
  have hpos := i.length_eq
  exact ⟨hlen, by omega, by omega, fun s t => exec_pc⟩

/-- An instruction consumes between 1 and 5 cycles after the opcode fetch (R56). -/
theorem exec_rem_bounds {i : Instr} {s t : State} (h : exec i s = .next t) : s.rem - 5 ≤ t.rem ∧ t.rem ≤ s.rem - 1 := by
  rcases exec_cases i s with ⟨r, v, c, he, hmin, hmax⟩ | ⟨r, ea, c, he, hmin, hmax⟩ | ⟨target, -, he⟩ | ⟨-, he⟩
  · cases he.symm.trans h
    rw [load_rem, after_rem]
    omega
  · cases he.symm.trans h
    rw [State.writeByte_rem, after_rem]
    omega
  all_goals
    cases he.symm.trans h
    dsimp only
    omega

/-- A load from a resolved address, run after the opcode fetch, costs the resolver's cycles and 2 (R72, R101). -/
theorem loadFrom_rem {s : State} (r : DataReg) {resolved : Addr × State} {k c n : Nat}
    (h : resolved.2 = s.opcodeFetched.after k c) (hn : n = c + 2) :
    ∃ t, loadFrom r resolved = .next t ∧ t.rem = s.rem - (n : Int) := by
  refine ⟨_, loadFrom_eq r resolved.1 resolved.2, ?_⟩
  rw [load_rem, h, after_tick, opcodeFetched_after, after_rem, hn]

/-- A store to a resolved address costs alike (R74, R101). -/
theorem storeTo_rem {s : State} (r : DataReg) {resolved : Addr × State} {k c n : Nat}
    (h : resolved.2 = s.opcodeFetched.after k c) (hn : n = c + 2) :
    ∃ t, storeTo r resolved = .next t ∧ t.rem = s.rem - (n : Int) := by
  refine ⟨_, storeTo_eq r resolved.1 resolved.2, ?_⟩
  rw [State.writeByte_rem, h, opcodeFetched_after, after_rem, hn]
  omega

/-- Every instruction, run after the opcode fetch, completes and costs what its row in R56 says: the resolver of its mode
gives the cycles, and the page crossing where the row has one. -/
theorem exec_rem (i : Instr) (s : State) :
    ∃ t, exec i s.opcodeFetched = .next t ∧ t.rem = s.rem - (cost i s : Int) := by
  have hcross : ∀ base idx k, 2 + k + crossing base idx = k + cross base idx + 2 := fun base idx k => by
    rw [crossing_eq]; omega
  cases i with
  | ldaImm d8 | ldxImm d8 | ldyImm d8 =>
    exact ⟨_, rfl, by rw [load_rem]; exact Int.sub_sub s.rem 1 1⟩
  | ldaZp d8 | ldxZp d8 | ldyZp d8 => exact loadFrom_rem _ (k := 1) (c := 1) rfl rfl
  | ldaZpx d8 | ldyZpx d8 => exact loadFrom_rem _ (congrArg Prod.snd (addrZpx_eq d8 _)) rfl
  | ldxZpy d8 => exact loadFrom_rem _ (congrArg Prod.snd (addrZpy_eq d8 _)) rfl
  | ldaAbs base | ldxAbs base | ldyAbs base => exact loadFrom_rem _ (k := 2) (c := 2) rfl rfl
  | ldaAbsx base | ldyAbsx base =>
    exact loadFrom_rem _ (congrArg Prod.snd (addrAbsxRead_eq base _)) (hcross base s.x 2)
  | ldaAbsy base | ldxAbsy base =>
    exact loadFrom_rem _ (congrArg Prod.snd (addrAbsyRead_eq base _)) (hcross base s.y 2)
  | ldaIndx d8 => exact loadFrom_rem _ (congrArg Prod.snd (addrIndx_eq d8 _)) rfl
  | ldaIndy d8 =>
    have hcost : cost (.ldaIndy d8) s = 3 + cross (s.mem.readWord (zext16 d8)) s.y + 2 := by
      rw [← hcross, ← zp_eq, ← wordAt_eq]; rfl
    exact loadFrom_rem _ (congrArg Prod.snd (addrIndyRead_eq d8 _)) hcost
  | staZp d8 | stxZp d8 | styZp d8 => exact storeTo_rem _ (k := 1) (c := 1) rfl rfl
  | staZpx d8 | styZpx d8 => exact storeTo_rem _ (congrArg Prod.snd (addrZpx_eq d8 _)) rfl
  | staAbs base | stxAbs base | styAbs base => exact storeTo_rem _ (k := 2) (c := 2) rfl rfl
  | staAbsx base => exact storeTo_rem _ (congrArg Prod.snd (addrAbsxWrite_eq base _)) rfl
  | staAbsy base => exact storeTo_rem _ (congrArg Prod.snd (addrAbsyWrite_eq base _)) rfl
  | staIndx d8 => exact storeTo_rem _ (congrArg Prod.snd (addrIndx_eq d8 _)) rfl
  | staIndy d8 => exact storeTo_rem _ (congrArg Prod.snd (addrIndyWrite_eq d8 _)) rfl
  | jsr target => exact ⟨_, execJsr_eq target _, Int.sub_sub s.rem 1 5⟩
  | rts => exact ⟨_, execRts_eq _, Int.sub_sub s.rem 1 5⟩

/-- Settles O36: the cost is the row's, and the bounds on an instruction's cycles are those of the cost. -/
theorem costTable : Obligations.CostTable := by
  unfold Obligations.CostTable
  intro i s t ht
  obtain ⟨t', ht', hrem⟩ := exec_rem i s
  cases ht'.symm.trans ht
  obtain ⟨hmax, hmin⟩ := exec_rem_bounds ht
  rw [State.opcodeFetched_rem] at hmax hmin
  exact ⟨hrem, by omega, by omega⟩

end Sys2Proof.Claims
end

section
/-! Fetch, addressing modes and flags (40_fetch_addressing_flags.md): page crossings (R83), the read and write variants (R77),
the zero-page pointer switch (R91), the flag updater (R92) and the cycle-consuming primitives (R70 to R75). -/

namespace Sys2Proof.Claims

open Sys2Proof.Machine

/-! ### Page crossings (R83) -/

/-- The 16-bit index addition in integers (R84). -/
theorem add_zext16_toNat (base : Addr) (idx : Byte) :
    (base + zext16 idx).toNat = (base.toNat + idx.toNat) % 65536 := by
  rw [BitVec.toNat_add, zext16_toNat]

/-- An index crosses the page when the sum with the low byte does not fit a byte (R83). -/
theorem cross_eq_one_iff (base : Addr) (idx : Byte) : cross base idx = 1 ↔ 0xFF < base.toNat % 256 + idx.toNat := by
  rw [cross, loByte_toNat]
  split <;> omega

/-- An index crosses the page exactly when the sum lies on another page, the wrap to page 0 included (R83). -/
theorem cross_eq_one_iff_hiByte_ne (base : Addr) (idx : Byte) :
    cross base idx = 1 ↔ hiByte (base + zext16 idx) ≠ hiByte base := by
  have hbase := base.isLt
  have hidx := idx.isLt
  rw [cross_eq_one_iff, ne_eq, ← BitVec.toNat_inj, hiByte_toNat, hiByte_toNat, add_zext16_toNat]
  omega

/-- An index crosses the page exactly when it lowers the low byte (R83). -/
theorem cross_eq_one_iff_loByte_lt (base : Addr) (idx : Byte) :
    cross base idx = 1 ↔ (loByte (base + zext16 idx)).toNat < (loByte base).toNat := by
  have hidx := idx.isLt
  rw [cross_eq_one_iff, loByte_toNat, loByte_toNat, add_zext16_toNat]
  omega

/-- Index 0 stays on the page (R83). -/
theorem cross_zero (base : Addr) : cross base 0x00 = 0 := by
  have hlow := (loByte base).isLt
  exact if_neg (Nat.not_lt.mpr (Nat.le_of_lt_succ hlow))

/-- Settles O19: each form is the integer test on the low bytes; the sum minus the base is the index, a byte. -/
theorem crossIsPageCrossing : Obligations.CrossIsPageCrossing := by
  unfold Obligations.CrossIsPageCrossing
  intro base idx
  refine ⟨(crossing_eq base idx).symm, cross_eq_one_iff_hiByte_ne base idx, cross_eq_one_iff_loByte_lt base idx,
    cross_zero base, ?_⟩
  rw [BitVec.add_comm, BitVec.add_sub_cancel, zext16_toNat]
  exact idx.isLt

/-! ### The variants of an indexed mode (R77) -/

/-- The two variants of an index addition answer one address; the read variant charges the crossing where the write variant
charges a cycle (R77). -/
theorem indexed_variants (base : Addr) (idx : Byte) (s : State) :
    (indexed .read base idx s).1 = (indexed .write base idx s).1 ∧
      ∃ r, (indexed .read base idx s).2 = { (indexed .write base idx s).2 with rem := r } ∧
        r = (indexed .write base idx s).2.rem + 1 - (crossing base idx : Int) := by
  refine ⟨rfl, s.rem - (cross base idx : Int), rfl, ?_⟩
  show s.rem - (cross base idx : Int) = s.rem - 1 + 1 - (crossing base idx : Int)
  rw [crossing_eq, Int.sub_add_cancel]

/-- Settles O20: each mode ends in the index addition, and (zp),Y takes its base from the pointer. -/
theorem variantsDifferInCyclesOnly : Obligations.VariantsDifferInCyclesOnly := by
  unfold Obligations.VariantsDifferInCyclesOnly
  intro s base d8
  refine ⟨indexed_variants base s.x (s.passBytes 2), indexed_variants base s.y (s.passBytes 2), ?_⟩
  rw [wordAt_eq, zp_eq]
  exact indexed_variants (s.mem.readWord (zext16 d8)) s.y (readPointer false d8 (s.passBytes 1)).2

/-- Settles O21: the switch reaches the pointer's value only, and that at 0x00FF only. -/
theorem zeroPagePointerSwitch : Obligations.ZeroPagePointerSwitch := by
  unfold Obligations.ZeroPagePointerSwitch
  refine ⟨fun s p hp => ?_, fun s => ?_, fun s => ?_, fun wrap s p => ?_, fun s d8 => ⟨rfl, rfl, rfl⟩⟩
  · rw [readPointer_eq, readPointer_eq, pointerAt_irrel hp true false]
  · rw [readPointer_eq]; rfl
  · rw [readPointer_eq]; rfl
  · rw [readPointer_eq]

/-! ### The flag updater (R92) -/

/-- `Z` is set for the value 0 alone (R92). -/
theorem setZN_z_iff (f : Flags) (v : Byte) : (f.setZN v).z = true ↔ v.toNat = 0 := by
  obtain ⟨hz, -⟩ := flagsOfValue_setZN v f
  exact hz.trans BitVec.toNat_inj.symm

/-- `N` is set for the values from 0x80 on (R92). -/
theorem setZN_n_iff (f : Flags) (v : Byte) : (f.setZN v).n = true ↔ 0x80 ≤ v.toNat := by
  obtain ⟨-, hn, -⟩ := flagsOfValue_setZN v f
  exact hn

/-- Settles O18: each range of values settles the two integer tests. -/
theorem flagUpdaterOutcomes : Obligations.FlagUpdaterOutcomes := by
  unfold Obligations.FlagUpdaterOutcomes
  intro f v
  refine ⟨flagsOfValue_setZN v f, fun _ => rfl, ?_⟩
  simp only [← Bool.not_eq_true, setZN_z_iff, setZN_n_iff]
  omega

/-! ### Primitives (R70 to R75) -/

/-- Settles O22: the fetched word is the two cells at `PC`, low byte first. -/
theorem fetchPrimitives : Obligations.FetchPrimitives := by
  unfold Obligations.FetchPrimitives
  intro s
  exact ⟨⟨rfl, rfl⟩, (wordAt_eq s.mem s.pc).symm, rfl⟩

/-- Settles O23: each primitive is its memory operation and its cycles. -/
theorem dataPrimitives : Obligations.DataPrimitives := by
  unfold Obligations.DataPrimitives
  intro s a b w hs
  refine ⟨rfl, rfl, (wordAt_eq s.mem a).symm, State.readWord_snd s a, ?_, ?_, rfl, ?_, ?_, ?_, rfl⟩
  · exact Memory.read_write_same hs a b
  · exact fun c hc => Memory.read_write_other s.mem a c b hc
  · exact Memory.read_writeWord_low hs a w
  · exact Memory.read_writeWord_high hs a w
  · exact Memory.read_writeWord_other s.mem a w

end Sys2Proof.Claims
end

section
/-! Every instruction completes, and what a completed step says of the latch and of the counter
(41_dispatch_execute.md R101, R108, R109, R113). -/

namespace Sys2Proof.Machine

/-- An instruction leaves `FAULT` alone (R113, R171). -/
theorem exec_fault {i : Instr} {s t : State} (h : exec i s = .next t) : t.fault = s.fault := by
  obtain ⟨u, hu, hfault⟩ := execWith_completes Config.standard i s
  rw [execWith_standard] at hu
  cases hu.symm.trans h
  exact hfault

/-- Only an unlatched machine completes a step, and the step leaves it unlatched (R109, R113). -/
theorem fault_of_step_next {s t : State} (h : step s = .next t) : s.fault = .none ∧ t.fault = .none := by
  rcases step_cases s with ⟨b, -, he⟩ | ⟨-, -, he⟩ | ⟨hf, o, -, he⟩
  · cases he.symm.trans h
  · cases he.symm.trans h
  · exact ⟨hf, (exec_fault (he.symm.trans h)).trans hf⟩

/-- A step consumes between 2 and 6 cycles (R56). -/
theorem step_rem_bounds {s t : State} (h : step s = .next t) : s.rem - 6 ≤ t.rem ∧ t.rem ≤ s.rem - 2 := by
  obtain ⟨i, hi⟩ := Claims.exec_of_step_next h
  obtain ⟨hmax, hmin⟩ := Claims.exec_rem_bounds hi
  rw [State.opcodeFetched_rem] at hmax hmin
  omega

/-- A counter that went from `r` to `t.rem`, counted from `m` in place of `r`: it is `m` less the same cycles. -/
theorem addRem_eq_withRem (t : State) (m r : Int) : t.addRem (m - r) = t.withRem (m - (r - t.rem)) :=
  congrArg t.withRem (show t.rem + (m - r) = m - (r - t.rem) by omega)

end Sys2Proof.Machine

namespace Sys2Proof.Claims

open Sys2Proof.Machine

/-- Settles O30: with no fault latched the step runs what the bytes at `PC` decode to, after the opcode fetch. -/
theorem stepRunsDecodedInstruction : Obligations.StepRunsDecodedInstruction := by
  unfold Obligations.StepRunsDecodedInstruction
  intro s i rest hf hd _
  exact ⟨rfl, step_decoded hf hd⟩

/-- Settles O32: the instruction completes under every setting of the parameters, so under the default one. -/
theorem everyInstructionCompletes : Obligations.EveryInstructionCompletes := by
  unfold Obligations.EveryInstructionCompletes
  intro i s
  rw [← execWith_standard]
  exact execWith_completes Config.standard i s

/-- Settles O35: a latched step and a latched `Execute` answer before they fetch. -/
theorem faultIsSticky : Obligations.FaultIsSticky := by
  unfold Obligations.FaultIsSticky
  intro s b n hf
  exact ⟨stepWith_latched Config.standard hf, execute_latched hf n⟩

/-- Settles O42: a step commutes with any move of the counter. -/
theorem counterNeverInfluencesExecution : Obligations.CounterNeverInfluencesExecution := by
  unfold Obligations.CounterNeverInfluencesExecution
  intro s t r h
  exact (stepWith_rem h r).trans (congrArg Host.Outcome.next (addRem_eq_withRem t r s.rem))

end Sys2Proof.Claims
end

section
/-! `Execute` one instruction at a time (41_dispatch_execute.md R100 to R107): its four ways to begin, and the induction
over them. -/

namespace Sys2Proof.Machine

/-- `Execute` with no budget (R105). -/
theorem execute_idle {s : State} {n : Int} (hf : s.fault = .none) (hn : n ≤ 0) : execute n s = .done s 0 := by
  rw [execute_unlatched hf, executeLoop_idle _ _ hn, endExecute, Int.sub_self]

/-- `Execute` at an unimplemented byte (R107, R173). -/
theorem execute_unimplemented {s : State} {n : Int} (hf : s.fault = .none) (hn : 1 ≤ n)
    (hb : ∀ o, standardOpcodeMap o ≠ s.mem.read s.pc) : execute n s =
      .faulted { s with pc := s.pc + 1, fault := .unimplementedOpcode (s.mem.read s.pc) } (s.mem.read s.pc) :=
  executeWith_fault hf hn (stepWith_unimplemented Config.standard (s := s.withRem n) hf hb)

/-- Fuel for the cycles that remain is enough, since every step lowers the counter: more makes no difference (R111). -/
theorem executeLoop_fuel_irrel {s : State} {j k : Nat} (hj : s.rem ≤ j) (hk : s.rem ≤ k) :
    executeLoop j s = executeLoop k s := by
  induction j generalizing s k with
  | zero => rw [executeLoop_idle _ _ hj, executeLoop_idle _ _ hj]
  | succ j ih =>
    cases k with
    | zero => rw [executeLoop_idle _ _ hk, executeLoop_idle _ _ hk]
    | succ k =>
      rw [executeLoop_succ, executeLoop_succ]
      cases ht : step s with
      | next t =>
        have hcost := step_rem_bounds ht
        simp only [ih (s := t) (k := k) (by omega) (by omega)]
      | fault f | refused r => rfl

/-- What an `Execute` returns, with `k` more cycles used. -/
def ExecuteOutcome.addCycles (k : Int) : ExecuteOutcome → ExecuteOutcome
  | .done left used => .done left (used + k)
  | .faulted left opcode => .faulted left opcode
  | .refused why => .refused why

/-- A loop that ends an `Execute` of a budget lower by `k` ends one of the whole budget with `k` more cycles used. -/
theorem endExecute_addCycles (s t : State) (n k : Int) (o : Host.Outcome State Fault Refusal) :
    endExecute s n o = (endExecute (t.withRem s.rem) (n - k) o).addCycles k := by
  match o with
  | .next u => exact congrArg (ExecuteOutcome.done (u.withRem s.rem)) (show n - u.rem = n - k - u.rem + k by omega)
  | .fault (.unimplementedOpcode _ _) | .refused _ => rfl

/-- `Execute` whose first instruction completes: that instruction, then `Execute` of the budget that is left (R100). -/
theorem execute_next {s t : State} {n : Int} (hn : 1 ≤ n) (h : step s = .next t) :
    execute n s = (execute (n - (s.rem - t.rem)) (t.withRem s.rem)).addCycles (s.rem - t.rem) := by
  obtain ⟨hs, ht⟩ := fault_of_step_next h
  have hfirst := stepWith_rem h n
  rw [addRem_eq_withRem] at hfirst
  have hcost : 2 ≤ s.rem - t.rem := by have := step_rem_bounds h; omega
  generalize s.rem - t.rem = k at hfirst hcost ⊢
  have hfuel : executeLoop (n.toNat - 1) (t.withRem (n - k)) = executeLoop (n - k).toNat (t.withRem (n - k)) :=
    executeLoop_fuel_irrel (show n - k ≤ _ by omega) (show n - k ≤ _ by omega)
  calc execute n s
      = endExecute s n (executeLoop (n.toNat - 1) (t.withRem (n - k))) := executeWith_next hs hn hfirst
    _ = (endExecute (t.withRem s.rem) (n - k) (executeLoop (n - k).toNat (t.withRem (n - k)))).addCycles k := by
        rw [hfuel, endExecute_addCycles s t n k]
    _ = (execute (n - k) (t.withRem s.rem)).addCycles k := by rw [execute_unlatched (s := t.withRem s.rem) ht]; rfl

/-- Induction along an `Execute`: it reports a latched fault, has no budget, meets an unimplemented byte, or runs one
instruction and goes on with the budget that is left. -/
theorem execute_induction {motive : Int → State → Prop}
    (latched : ∀ n s b, s.fault = .unimplementedOpcode b → motive n s)
    (idle : ∀ n s, s.fault = .none → n ≤ 0 → motive n s)
    (unimplemented : ∀ n s, s.fault = .none → 1 ≤ n → (∀ o, standardOpcodeMap o ≠ s.mem.read s.pc) → motive n s)
    (next : ∀ n s t, 1 ≤ n → step s = .next t → motive (n - (s.rem - t.rem)) (t.withRem s.rem) → motive n s)
    (n : Int) (s : State) : motive n s := by
  induction hk : n.toNat using Nat.strong_induction_on generalizing n s with
  | _ k ih =>
    cases hf : s.fault with
    | unimplementedOpcode b => exact latched n s b hf
    | none =>
      rcases le_or_gt n 0 with hn | hn
      · exact idle n s hf hn
      rcases fetchExecuteWith_cases Config.standard s with ⟨hb, -⟩ | ⟨o, -, he⟩
      · exact unimplemented n s hf hn (opcodeOf_none hb)
      · obtain ⟨t, ht, -⟩ := execWith_completes Config.standard
          (o.instr (s.mem.read (s.pc + 1)) (s.mem.read (s.pc + 2))) s.opcodeFetched
        have hstep : step s = .next t := (stepWith_unlatched Config.standard hf).trans (he.trans ht)
        have hcost := step_rem_bounds hstep
        exact next n s t hn hstep (ih _ (by omega) _ _ rfl)

end Sys2Proof.Machine

namespace Sys2Proof.Claims

open Sys2Proof.Machine

/-- Settles O46: the loop ends before its first round. -/
theorem executeIdle : Obligations.ExecuteIdle := by
  unfold Obligations.ExecuteIdle
  exact fun _ _ => execute_idle

/-- Settles O49: the first step faults, which ends the loop. -/
theorem executeEndsAtFault : Obligations.ExecuteEndsAtFault := by
  unfold Obligations.ExecuteEndsAtFault
  exact fun _ _ hn hf hb => execute_unimplemented hf hn hb

/-- Settles O47: the first step leaves no cycles for a second round. -/
theorem executeRunsOneInstruction : Obligations.ExecuteRunsOneInstruction := by
  unfold Obligations.ExecuteRunsOneInstruction
  intro s t n h hn hcost
  obtain ⟨hf, -⟩ := fault_of_step_next h
  exact executeWith_one hf h hn hcost

/-- Settles O48: the loop after the first step is that of the lower budget, whose fuel is enough. -/
theorem executeUnrolls : Obligations.ExecuteUnrolls := by
  unfold Obligations.ExecuteUnrolls
  intro s t n hn h
  rw [execute_next hn h, State.withRem]
  cases execute (n - (s.rem - t.rem)) { t with rem := s.rem } with
  | done left used | faulted left b | refused r => rfl

/-- Adding cycles makes no end normal: a normal end was one before, with so many cycles fewer. -/
theorem done_of_addCycles {o : ExecuteOutcome} {k used : Int} {t : State} (h : o.addCycles k = .done t used) :
    o = .done t (used - k) := by
  cases o with
  | done left used' => cases h; rw [Int.add_sub_cancel]
  | faulted left b | refused r => cases h

/-- Settles O50, by induction along the `Execute`: the last instruction costs at most 6 and began with a cycle left. -/
theorem executeOvershootBound : Obligations.ExecuteOvershootBound := by
  unfold Obligations.ExecuteOvershootBound
  intro s t n used
  induction n, s using execute_induction generalizing used with
  | latched n s b hf => intro _ h; cases (execute_latched hf n).symm.trans h
  | idle n s _ hn => intro hn'; omega
  | unimplemented n s hf hn hb => intro _ h; cases (execute_unimplemented hf hn hb).symm.trans h
  | next n s u hn hstep ih =>
    intro _ h
    by_cases hlast : n ≤ s.rem - u.rem
    · cases (executeRunsOneInstruction s u n hstep hn hlast).symm.trans h
      have hcost := step_rem_bounds hstep
      omega
    · rw [execute_next hn hstep] at h
      have hrest := ih _ (by omega) (done_of_addCycles h)
      omega

end Sys2Proof.Claims
end

section
/-! The two ends of an `Execute` (41_dispatch_execute.md R111, R112), and that safe states end it normally. -/

namespace Sys2Proof.Machine

/-! ### Safe states -/

/-- A run may begin with a step. -/
theorem Reaches.head {s t u : State} (h : step s = .next t) (hr : Reaches t u) : Reaches s u := by
  induction hr with
  | refl => exact .tail (.refl s) h
  | tail _ hstep ih => exact .tail ih hstep

/-- A run does not look at the counter (R108). -/
theorem Reaches.addRem {s t : State} (h : Reaches s t) (d : Int) : Reaches (s.addRem d) (t.addRem d) := by
  induction h with
  | refl => exact .refl _
  | @tail t u _ hstep ih =>
    have hstep' : step (t.addRem d) = outcomeAddRem d (step t) := stepWith_ignoresRem Config.standard t d
    rw [hstep] at hstep'
    exact .tail ih hstep'

/-- Safety does not depend on the counter. -/
theorem State.Safe.addRem {s : State} (h : s.Safe) (d : Int) : (s.addRem d).Safe := by
  intro t ht
  have hback := ht.addRem (-d)
  rw [show (s.addRem d).addRem (-d) = s from congrArg s.withRem (Int.add_neg_cancel_right s.rem d)] at hback
  have hready : (t.addRem (-d)).Ready := h _ hback
  exact hready

/-- A step from a safe state leads to one. -/
theorem State.Safe.next {s t : State} (h : s.Safe) (hstep : step s = .next t) : t.Safe := fun u hu =>
  h u (.head hstep hu)

/-- A safe state has no fault latched and an implemented byte at `PC`. -/
theorem State.Safe.ready {s : State} (h : s.Safe) : s.Ready := h s (.refl s)

end Sys2Proof.Machine

namespace Sys2Proof.Claims

open Sys2Proof.Machine

/-- The ends of an `Execute`: normal with no fault latched, or the fault that the state it leaves has latched (R112). -/
def EndsInTwoWays (o : ExecuteOutcome) : Prop :=
  (∃ t used, o = .done t used ∧ t.fault = .none) ∨ ∃ t b, o = .faulted t b ∧ t.fault = .unimplementedOpcode b

theorem endsInTwoWays_addCycles {o : ExecuteOutcome} (h : EndsInTwoWays o) (k : Int) : EndsInTwoWays (o.addCycles k) := by
  rcases h with ⟨t, used, rfl, ht⟩ | ⟨t, b, rfl, ht⟩
  · exact .inl ⟨t, used + k, rfl, ht⟩
  · exact .inr ⟨t, b, rfl, ht⟩

theorem endsNormally_addCycles (o : ExecuteOutcome) (k : Int) : (o.addCycles k).endsNormally = o.endsNormally := by
  cases o with
  | done t used | faulted t b | refused r => rfl

theorem execute_endsInTwoWays (n : Int) (s : State) : EndsInTwoWays (execute n s) := by
  induction n, s using execute_induction with
  | latched n s b hf => exact .inr ⟨s, b, execute_latched hf n, hf⟩
  | idle n s hf hn => exact .inl ⟨s, 0, execute_idle hf hn, hf⟩
  | unimplemented n s hf hn hb => exact .inr ⟨_, _, execute_unimplemented hf hn hb, rfl⟩
  | next n s t hn hstep ih =>
    rw [execute_next hn hstep]
    exact endsInTwoWays_addCycles ih _

/-- An `Execute` from a safe state dispatches no unimplemented byte, so it ends normally (R112, R113). -/
theorem execute_endsNormally_of_safe (n : Int) {s : State} (h : s.Safe) : (execute n s).endsNormally = true := by
  induction n, s using execute_induction with
  | latched n s b hf => cases hf.symm.trans h.ready.1
  | idle n s hf hn => rw [execute_idle hf hn, ExecuteOutcome.endsNormally]
  | unimplemented n s hf hn hb =>
    obtain ⟨-, o, ho⟩ := h.ready
    exact absurd (opcodeOf_some ho) (hb o)
  | next n s t hn hstep ih =>
    rw [execute_next hn hstep, endsNormally_addCycles]
    have hsafe := (h.next hstep).addRem (s.rem - t.rem)
    rw [addRem_sub] at hsafe
    exact ih hsafe

/-- Settles O51, both clauses by induction along the `Execute`. -/
theorem executeEndsInTwoWays : Obligations.ExecuteEndsInTwoWays := by
  unfold Obligations.ExecuteEndsInTwoWays
  exact fun s n => ⟨execute_endsInTwoWays n s, execute_endsNormally_of_safe n⟩

end Sys2Proof.Claims
end

section
/-! The loads of the modes without a pointer (42_loads.md): for each addressing mode what a load in it leaves, into any
register and from the state before the opcode fetch; then the instructions, each the load of its mode into its register. -/

namespace Sys2Proof.Claims

open Sys2Proof.Machine

/-- A load of the operand byte (R78). -/
theorem loadValue_operandImm (r : DataReg) (d8 : Byte) (s : State) :
    ∃ t, loadValue r (operandImm d8 s.opcodeFetched) = .next t ∧ Loaded r d8 2 2 s t := by
  refine ⟨_, rfl, ?_⟩
  rw [operandImm, passBytes_eq, opcodeFetched_after]
  exact loaded_load r d8 2 2 s

/-- A load in zero-page mode (R79). -/
theorem loadFrom_addrZp (r : DataReg) (d8 : Byte) (s : State) :
    ∃ t, loadFrom r (addrZp d8 s.opcodeFetched) = .next t ∧ Loaded r (s.mem.read (zp d8)) 2 3 s t := by
  rw [addrZp, passBytes_eq, zp_eq]
  exact loadFrom_loaded r (zext16 d8) 1 1 s

/-- A load in zero-page indexed mode: the model's 8-bit sum is the sum modulo 256 (R80, R81). -/
theorem loadFrom_addrZpIndexed (r idx : DataReg) (d8 : Byte) (s : State) :
    ∃ t, loadFrom r (addrZpIndexed idx d8 s.opcodeFetched) = .next t ∧
      Loaded r (s.mem.read (zpIndexed d8 (s.reg idx))) 2 4 s t := by
  rw [addrZpIndexed, passBytes_tick, State.opcodeFetched_reg, zpIndexed_eq]
  exact loadFrom_loaded r (zext16 (d8 + s.reg idx)) 1 2 s

/-- A load in absolute mode (R82). -/
theorem loadFrom_addrAbs (r : DataReg) (ea : Addr) (s : State) :
    ∃ t, loadFrom r (addrAbs ea s.opcodeFetched) = .next t ∧ Loaded r (s.mem.read ea) 3 4 s t := by
  rw [addrAbs, passBytes_eq]
  exact loadFrom_loaded r ea 2 2 s

/-- A load after the 16-bit index addition, with the cycle of the page crossing (R84, R85). -/
theorem loadFrom_indexedRead (r : DataReg) (base : Addr) (idx : Byte) (s : State) :
    ∃ t, loadFrom r (indexed .read base idx (s.opcodeFetched.passBytes 2)) = .next t ∧
      Loaded r (s.mem.read (absIndexed base idx)) 3 (4 + crossing base idx) s t := by
  have hcost : 4 + cross base idx = 2 + cross base idx + 2 := by omega
  rw [indexed, Variant.extra, passBytes_tick, absIndexed_eq, crossing_eq, hcost]
  exact loadFrom_loaded r (base + zext16 idx) 2 (2 + cross base idx) s

/-- Settles O1: each is the load of the operand byte into its register. -/
theorem loadImmediateResult : Obligations.LoadImmediateResult := by
  unfold Obligations.LoadImmediateResult
  intro s d8
  exact ⟨⟨fun _ => rfl, loadValue_operandImm .a d8 s⟩, ⟨fun _ => rfl, loadValue_operandImm .x d8 s⟩,
    ⟨fun _ => rfl, loadValue_operandImm .y d8 s⟩⟩

/-- Settles O2: each is the zero-page load into its register. -/
theorem loadZeroPageResult : Obligations.LoadZeroPageResult := by
  unfold Obligations.LoadZeroPageResult
  intro s d8
  exact ⟨⟨fun _ => rfl, loadFrom_addrZp .a d8 s⟩, ⟨fun _ => rfl, loadFrom_addrZp .x d8 s⟩,
    ⟨fun _ => rfl, loadFrom_addrZp .y d8 s⟩⟩

/-- Settles O3: each is the zero-page indexed load into its register, LDX indexed by `Y`, the others by `X`. -/
theorem loadZeroPageIndexedResult : Obligations.LoadZeroPageIndexedResult := by
  unfold Obligations.LoadZeroPageIndexedResult
  intro s d8
  exact ⟨⟨fun _ => rfl, loadFrom_addrZpIndexed .a .x d8 s⟩, ⟨fun _ => rfl, loadFrom_addrZpIndexed .x .y d8 s⟩,
    ⟨fun _ => rfl, loadFrom_addrZpIndexed .y .x d8 s⟩⟩

/-- Settles O4: each is the absolute load into its register. -/
theorem loadAbsoluteResult : Obligations.LoadAbsoluteResult := by
  unfold Obligations.LoadAbsoluteResult
  intro s ea
  exact ⟨⟨fun _ => rfl, loadFrom_addrAbs .a ea s⟩, ⟨fun _ => rfl, loadFrom_addrAbs .x ea s⟩,
    ⟨fun _ => rfl, loadFrom_addrAbs .y ea s⟩⟩

/-- Settles O5: each is the indexed load by `X` into its register. -/
theorem loadAbsoluteXResult : Obligations.LoadAbsoluteXResult := by
  unfold Obligations.LoadAbsoluteXResult
  intro s base
  exact ⟨⟨fun _ => rfl, loadFrom_indexedRead .a base s.x s⟩, ⟨fun _ => rfl, loadFrom_indexedRead .y base s.x s⟩⟩

/-- Settles O6: each is the indexed load by `Y` into its register. -/
theorem loadAbsoluteYResult : Obligations.LoadAbsoluteYResult := by
  unfold Obligations.LoadAbsoluteYResult
  intro s base
  exact ⟨⟨fun _ => rfl, loadFrom_indexedRead .a base s.y s⟩, ⟨fun _ => rfl, loadFrom_indexedRead .x base s.y s⟩⟩

end Sys2Proof.Claims
end

section
/-! The stores of the modes without a pointer (43_stores.md): for each addressing mode what a store in it leaves, of any
register and from the state before the opcode fetch; then the instructions, each the store in its mode of its register. -/

namespace Sys2Proof.Claims

open Sys2Proof.Machine

/-- A store in zero-page mode (R79). -/
theorem storeTo_addrZp (r : DataReg) (d8 : Byte) {s : State} (h : s.wf) :
    ∃ t, storeTo r (addrZp d8 s.opcodeFetched) = .next t ∧ Stored r (zp d8) 2 3 s t := by
  rw [addrZp, passBytes_eq, zp_eq]
  exact storeTo_stored r (zext16 d8) 1 1 h

/-- A store in zero-page,X mode: the model's 8-bit sum is the sum modulo 256 (R80). -/
theorem storeTo_addrZpx (r : DataReg) (d8 : Byte) {s : State} (h : s.wf) :
    ∃ t, storeTo r (addrZpx d8 s.opcodeFetched) = .next t ∧ Stored r (zpIndexed d8 s.x) 2 4 s t := by
  rw [addrZpx_eq, zpIndexed_eq]
  exact storeTo_stored r (zext16 (d8 + s.x)) 1 2 h

/-- A store in absolute mode (R82). -/
theorem storeTo_addrAbs (r : DataReg) (ea : Addr) {s : State} (h : s.wf) :
    ∃ t, storeTo r (addrAbs ea s.opcodeFetched) = .next t ∧ Stored r ea 3 4 s t := by
  rw [addrAbs, passBytes_eq]
  exact storeTo_stored r ea 2 2 h

/-- A store after the 16-bit index addition: the write variant pays one cycle for it whatever the page (R77, R86, R87). -/
theorem storeTo_indexedWrite (r : DataReg) (base : Addr) (idx : Byte) {s : State} (h : s.wf) :
    ∃ t, storeTo r (indexed .write base idx (s.opcodeFetched.passBytes 2)) = .next t ∧
      Stored r (absIndexed base idx) 3 5 s t := by
  rw [indexed, Variant.extra, passBytes_tick, absIndexed_eq]
  exact storeTo_stored r (base + zext16 idx) 2 3 h

/-- Settles O9: each is the zero-page store of its register. -/
theorem storeZeroPageResult : Obligations.StoreZeroPageResult := by
  unfold Obligations.StoreZeroPageResult
  intro s d8 h
  exact ⟨⟨fun _ => rfl, storeTo_addrZp .a d8 h⟩, ⟨fun _ => rfl, storeTo_addrZp .x d8 h⟩,
    ⟨fun _ => rfl, storeTo_addrZp .y d8 h⟩⟩

/-- Settles O10: each is the zero-page,X store of its register. -/
theorem storeZeroPageXResult : Obligations.StoreZeroPageXResult := by
  unfold Obligations.StoreZeroPageXResult
  intro s d8 h
  exact ⟨⟨fun _ => rfl, storeTo_addrZpx .a d8 h⟩, ⟨fun _ => rfl, storeTo_addrZpx .y d8 h⟩⟩

/-- Settles O11: each is the absolute store of its register. -/
theorem storeAbsoluteResult : Obligations.StoreAbsoluteResult := by
  unfold Obligations.StoreAbsoluteResult
  intro s ea h
  exact ⟨⟨fun _ => rfl, storeTo_addrAbs .a ea h⟩, ⟨fun _ => rfl, storeTo_addrAbs .x ea h⟩,
    ⟨fun _ => rfl, storeTo_addrAbs .y ea h⟩⟩

/-- Settles O12: each is the indexed store of `A`, by `X` and by `Y`. -/
theorem storeAbsoluteIndexedResult : Obligations.StoreAbsoluteIndexedResult := by
  unfold Obligations.StoreAbsoluteIndexedResult
  intro s base h
  exact ⟨⟨fun _ => rfl, storeTo_indexedWrite .a base s.x h⟩, ⟨fun _ => rfl, storeTo_indexedWrite .a base s.y h⟩⟩

end Sys2Proof.Claims
end

section
/-! The call and the return (44_subroutine.md R160 to R163): each as one update of the state before the opcode fetch, and the
return word between them. -/

namespace Sys2Proof.Machine.Memory

/-- A word read looks at its two cells only (R35). -/
theorem readWord_congr {m m' : Memory} {a a' : Addr} (hlow : m.read a = m'.read a')
    (hhigh : m.read (a + 1) = m'.read (a' + 1)) : m.readWord a = m'.readWord a' := by
  rw [readWord, readWord, hlow, hhigh]

end Sys2Proof.Machine.Memory

namespace Sys2Proof.Claims

open Sys2Proof.Machine

/-- JSR, run after the opcode fetch, from the state before it: the return word is the address of its last byte (R160). -/
theorem exec_jsr (target : Addr) (s : State) : exec (.jsr target) s.opcodeFetched =
    .next { s with mem := s.mem.writeWord s.sp (s.pc + 2), pc := target, rem := s.rem - 6 } := by
  have hlast : s.pc + 1 + 1 = s.pc + 2 := BitVec.add_assoc s.pc 1 1
  have hrem : s.rem - 1 - 5 = s.rem - 6 := Int.sub_sub s.rem 1 5
  rw [exec, execJsr_eq, State.opcodeFetched_pc, State.opcodeFetched_rem, hlast, hrem]
  rfl

/-- RTS, run after the opcode fetch, from the state before it (R161; C3). -/
theorem exec_rts (s : State) : exec .rts s.opcodeFetched =
    .next { s with pc := s.mem.readWord s.sp + 1, rem := s.rem - 6 } := by
  have hrem : s.rem - 1 - 5 = s.rem - 6 := Int.sub_sub s.rem 1 5
  rw [exec, execRts_eq, State.opcodeFetched_rem, hrem]
  rfl

/-- The word a call leaves at `SP` is the address of its last byte (R160). -/
theorem readWord_of_jsr {s t : State} {target : Addr} (hs : s.wf)
    (h : exec (.jsr target) s.opcodeFetched = .next t) : t.mem.readWord t.sp = s.pc + 2 := by
  cases (exec_jsr target s).symm.trans h
  exact Memory.readWord_writeWord hs s.sp (s.pc + 2)

/-- Settles O14: the cells of the word written at `SP`, and the record update for the rest. -/
theorem jsrResult : Obligations.JsrResult := by
  unfold Obligations.JsrResult
  intro s target hs
  refine ⟨fun _ => rfl, _, exec_jsr target s, ?_, ?_, ?_, rfl, rfl, rfl, fun q => by cases q <;> rfl, rfl, rfl⟩
  · exact Memory.read_writeWord_low hs s.sp (s.pc + 2)
  · exact Memory.read_writeWord_high hs s.sp (s.pc + 2)
  · exact Memory.read_writeWord_other s.mem s.sp (s.pc + 2)

/-- Settles O15: the word read at `SP`, and the record update for the rest. -/
theorem rtsResult : Obligations.RtsResult := by
  unfold Obligations.RtsResult
  intro s
  refine ⟨fun _ => rfl, _, exec_rts s, ?_, rfl, rfl, fun q => by cases q <;> rfl, rfl, rfl, fun _ => rfl⟩
  rw [wordAt_eq]

/-- Settles O16: the return reads the word the call left, the address of the call's last byte, and adds 1. -/
theorem returnResumesAfterCall : Obligations.ReturnResumesAfterCall := by
  unfold Obligations.ReturnResumesAfterCall
  intro s t u v target hs hcall _ hlow hhigh hreturn
  cases (exec_rts u).symm.trans hreturn
  calc u.mem.readWord u.sp + 1
      = t.mem.readWord t.sp + 1 := by rw [Memory.readWord_congr hlow hhigh]
    _ = s.pc + 2 + 1 := by rw [readWord_of_jsr hs hcall]
    _ = s.pc + 3 := BitVec.add_assoc s.pc 2 1

/-- Settles O17: a return changes neither `SP` nor the return word and a call does not move `SP`, so both returns find the
inner call's word. -/
theorem nestedCallLosesOuterReturn : Obligations.NestedCallLosesOuterReturn := by
  unfold Obligations.NestedCallLosesOuterReturn
  intro s₁ t₁ s₂ t₂ u₁ v₁ u₂ v₂ outer inner hs houter hsp hinner hsp₁ hlow₁ hhigh₁ hreturn₁ hsp₂ hlow₂ hhigh₂ hreturn₂
  have hfirst : v₁.pc = s₂.pc + 3 := returnResumesAfterCall s₂ t₂ u₁ v₁ inner hs hinner hsp₁ hlow₁ hhigh₁ hreturn₁
  cases (exec_rts u₁).symm.trans hreturn₁
  have hsecond : v₂.pc = s₂.pc + 3 := returnResumesAfterCall s₂ t₂ u₂ v₂ inner hs hinner (hsp₂.trans hsp₁)
    (hlow₂.trans hlow₁) (hhigh₂.trans hhigh₁) hreturn₂
  obtain ⟨houterSp, -⟩ := exec_keeps_storageOnly houter
  obtain ⟨hinnerSp, -⟩ := exec_keeps_storageOnly hinner
  exact ⟨hinnerSp.trans (hsp.trans houterSp), hfirst, hsecond⟩

end Sys2Proof.Claims
end

section
/-! The outcome of a step by the byte at `PC` (60_exceptions.md R174, R183): one lemma for the bytes of the map; for the
others `stepWith_unimplemented`. -/

namespace Sys2Proof.Machine

/-- A byte in the map is looked up, and the instruction it begins completes (R58, R113). -/
theorem step_next_of_implemented {s : State} {o : Opcode} (hf : s.fault = .none)
    (ho : standardOpcodeMap o = s.mem.read s.pc) : ∃ t, step s = .next t := by
  have hlookup : opcodeOf Config.standard.opcodeMap (s.mem.read s.pc) = some o :=
    ho ▸ opcodeOf_map standardOpcodeMap_wellFormed o
  rcases step_cases s with ⟨b, hlatched, -⟩ | ⟨-, hnone, -⟩ | ⟨-, o', -, he⟩
  · cases hf.symm.trans hlatched
  · cases hlookup.symm.trans hnone
  · obtain ⟨t, ht, -⟩ := Claims.everyInstructionCompletes
      (o'.instr (s.mem.read (s.pc + 1)) (s.mem.read (s.pc + 2))) s.opcodeFetched
    exact ⟨t, he.trans ht⟩

end Sys2Proof.Machine

namespace Sys2Proof.Claims

open Sys2Proof.Machine

/-- Settles O34: the byte is in the map and the step completes, or it is not and the step faults; a step has one outcome, so
each answer also tells which byte it was. -/
theorem stepOutcomeByOpcode : Obligations.StepOutcomeByOpcode := by
  unfold Obligations.StepOutcomeByOpcode
  intro s hf
  by_cases hb : ∃ o, standardOpcodeMap o = s.mem.read s.pc
  · obtain ⟨o, ho⟩ := hb
    obtain ⟨t, ht⟩ := step_next_of_implemented hf ho
    simp only [ht]
    exact ⟨⟨fun _ => ⟨o, ho⟩, fun _ => ⟨t, rfl⟩⟩, ⟨nofun, fun hnone => absurd ho (hnone o)⟩, nofun⟩
  · have hnone : ∀ o, standardOpcodeMap o ≠ s.mem.read s.pc := not_exists.mp hb
    simp only [unimplementedOpcodeFaults s hf hnone]
    exact ⟨⟨nofun, fun h => absurd h hb⟩, ⟨fun _ => hnone, fun _ => ⟨_, rfl⟩⟩, nofun⟩

end Sys2Proof.Claims
end

section
/-! The canonical form of memory (log 13): what the list of nonzero cells says about the cells, so that two lists that read
alike are one list; and that a step keeps it. -/

namespace Sys2Proof.Machine.Memory

/-- A key that reads as something else than an unlisted cell is listed. No canonical form is needed. -/
theorem mem_of_lookup {m : Memory} {k : Nat} {v : Byte} (h : m.lookup k = v) (hv : v ≠ unlisted) : (k, v) ∈ m := by
  induction m with
  | nil => exact absurd h.symm hv
  | cons p m ih =>
    obtain ⟨j, w⟩ := p
    rw [lookup] at h
    split at h
    next hkj => subst hkj h; exact List.mem_cons_self
    next => exact List.mem_cons_of_mem _ (ih h)

/-- With rising keys a listed cell is read: no cell before it has its key. -/
theorem lookup_of_mem {m : Memory} (h : m.Pairwise (fun p q => p.1 < q.1)) {p : Host.Cell} (hp : p ∈ m) :
    m.lookup p.1 = p.2 := by
  induction m with
  | nil => cases hp
  | cons q m ih =>
    obtain ⟨hhead, htail⟩ := List.pairwise_cons.mp h
    rw [lookup]
    rcases List.mem_cons.mp hp with rfl | hp
    · exact if_pos rfl
    · exact (if_neg (hhead p hp).ne').trans (ih htail hp)

/-- A memory that reads like a canonical one lists the cells the canonical one lists. -/
theorem mem_of_read_eq {m n : Memory} (hm : m.wf) (hread : ∀ a, m.read a = n.read a) {p : Host.Cell} (hp : p ∈ m) :
    p ∈ n := by
  obtain ⟨hrising, hcells⟩ := hm
  obtain ⟨hkey, hvalue⟩ := hcells p hp
  have haddr : (BitVec.ofNat 16 p.1).toNat = p.1 := Nat.mod_eq_of_lt hkey
  have hlookup : m.lookup p.1 = n.lookup p.1 := by simpa only [read, haddr] using hread (BitVec.ofNat 16 p.1)
  exact mem_of_lookup (hlookup.symm.trans (lookup_of_mem hrising hp)) hvalue

/-- Canonical memories that read alike are equal: they list the same cells, in the order of the keys. -/
theorem ext_read {m n : Memory} (hm : m.wf) (hn : n.wf) (hread : ∀ a, m.read a = n.read a) : m = n := by
  have : Std.Antisymm (fun p q : Host.Cell => p.1 < q.1) := ⟨fun _ _ hpq hqp => absurd hqp hpq.asymm⟩
  have : Std.Irrefl (fun p q : Host.Cell => p.1 < q.1) := ⟨fun p => lt_irrefl p.1⟩
  exact hm.1.eq_of_mem_iff hn.1 fun _ => ⟨mem_of_read_eq hm hread, mem_of_read_eq hn fun a => (hread a).symm⟩

/-- What a cell of a canonical memory holds after a write: the value written at its address, else what it held (R34). -/
theorem read_write {m : Memory} (h : m.wf) (a : Addr) (v : Byte) (c : Addr) :
    (m.write a v).read c = if c = a then v else m.read c := by
  split
  next hc => rw [hc, read_write_same h]
  next hc => exact read_write_other m a c v hc

/-- Writes to two different cells commute. -/
theorem write_comm {m : Memory} (h : m.wf) {a b : Addr} (hab : a ≠ b) (v w : Byte) :
    (m.write a v).write b w = (m.write b w).write a v := by
  have hva := write_wf h a v
  have hwb := write_wf h b w
  refine ext_read (write_wf hva b w) (write_wf hwb a v) fun c => ?_
  rw [read_write hva, read_write h, read_write hwb, read_write h]
  by_cases hcb : c = b
  · rw [if_pos hcb, if_neg (hcb ▸ hab.symm), if_pos hcb]
  · rw [if_neg hcb, if_neg hcb]

/-- Writing what a cell holds changes nothing. -/
theorem write_read_self {m : Memory} (h : m.wf) (a : Addr) : m.write a (m.read a) = m := by
  refine ext_read (write_wf h a _) h fun c => ?_
  rw [read_write h]
  split
  next hc => rw [hc]
  next => rfl

end Sys2Proof.Machine.Memory

namespace Sys2Proof.Claims

open Sys2Proof.Machine

/-- Settles O43: under any parameters, so at the default ones, both outcomes that carry a state leave a canonical memory. -/
theorem stepKeepsCanonicalMemory : Obligations.StepKeepsCanonicalMemory := by
  unfold Obligations.StepKeepsCanonicalMemory
  intro s hs
  have hleaves : OutcomeLeaves State.wf (step s) := stepWith_wf Config.standard s hs
  refine ⟨fun t ht => ?_, fun b t ht => ?_⟩
  · rwa [ht] at hleaves
  · rwa [ht] at hleaves

/-- Settles O25: the two laws of writes follow from extensionality, by comparing every cell. -/
theorem canonicalMemoryIsExtensional : Obligations.CanonicalMemoryIsExtensional := by
  unfold Obligations.CanonicalMemoryIsExtensional
  exact ⟨fun _ _ hm hn hread => Memory.ext_read hm hn hread, fun _ _ _ v w hm hab => Memory.write_comm hm hab v w,
    fun _ a hm => Memory.write_read_self hm a⟩

end Sys2Proof.Claims
end

section
/-! The instructions that read a zero-page pointer, at the default parameters (R88 to R91; D8, log 7): the configured ones
with the switch off, where the pointer is the word at its zero-page location. -/

namespace Sys2Proof.Claims

open Sys2Proof.Machine

/-- The pointer of this machine is the word at its location, the high byte at the 16-bit successor (R73, R91). -/
theorem pointerWith_standard (m : Memory) (p : Byte) :
    pointerWith Config.standard.zpPointerWrap m p = wordAt m (zp p) := by
  rw [pointerWith_eq, wordAt_eq, zp_eq]; exact pointerAt_off m p

/-- The location the 8-bit sum names is the indexed location in integers (R80, R88). -/
theorem zp_add (d8 idx : Byte) : zp (d8 + idx) = zpIndexed d8 idx := by rw [zp_eq, zpIndexed_eq]

/-- Settles O7: the configured LDA (zp,X) at the default parameters. -/
theorem loadIndirectXResult : Obligations.LoadIndirectXResult := by
  unfold Obligations.LoadIndirectXResult
  intro s d8
  obtain ⟨hload, -, -, -⟩ := configuredPointerInstructions Config.standard s d8
  rw [execWith_standard, pointerWith_standard, zp_add] at hload
  exact ⟨fun _ => rfl, hload⟩

/-- Settles O8: the configured LDA (zp),Y at the default parameters. -/
theorem loadIndirectYResult : Obligations.LoadIndirectYResult := by
  unfold Obligations.LoadIndirectYResult
  intro s d8
  obtain ⟨-, hload, -, -⟩ := configuredPointerInstructions Config.standard s d8
  rw [execWith_standard, pointerWith_standard] at hload
  exact ⟨fun _ => rfl, hload⟩

/-- Settles O13: the configured STA (zp,X) and (zp),Y at the default parameters; their pointer is read in the memory before
the store. -/
theorem storeIndirectResult : Obligations.StoreIndirectResult := by
  unfold Obligations.StoreIndirectResult
  intro s d8 hs
  obtain ⟨-, -, hindx, hindy⟩ := configuredPointerInstructions Config.standard s d8
  rw [execWith_standard, pointerWith_standard] at hindx hindy
  rw [zp_add] at hindx
  exact ⟨⟨fun _ => rfl, hindx hs⟩, ⟨fun _ => rfl, hindy hs⟩⟩

end Sys2Proof.Claims
end
